-- ==== Sys2Proof/Word.lean ====
section
/-! DEFINITION. The machine's value types: cells, indices, fields, words and text (R9, R16, R17). -/

namespace Sys2Proof

/-- One Cell, an 8-bit unsigned value: a register, a memory location, the program counter or an
execution address (R9, R23). -/
abbrev Byte := BitVec 8

/-- A 4-bit register index (R27, R86, R88). -/
abbrev RegIdx := BitVec 4

/-- The 4-bit operand field `F` read as a plain number: an immediate or a label rank (R88). -/
abbrev OpField := BitVec 4

/-- The 5-bit opcode field `OPC` (R85). -/
abbrev Opcode := BitVec 5

/-- A 9-bit instruction word (R16, R85). -/
abbrev InstrWord := BitVec 9

/-- A sequence of Unicode code points: source text, a label, a register name, an annotation.
It is a list, so that two texts compare by evaluation. -/
abbrev Text := List Char

end Sys2Proof
end

