-- ==== Sys2Proof/Syntax.lean ====
section
/-! DEFINITION. The abstract syntax: the 28 mnemonics, their operand-type classes (R87) and the
instructions with their operand fields (R88). -/

namespace Sys2Proof

/-- The 28 opcodes by name, in the order of the default opcode map (R87, R89). -/
inductive Mnemonic where
  | ass | movf | movt | add | addi | sub | subi
  | not | and | or | gt | lt | ge | le | eq
  | load | str | cfb | bez | bnz | b
  | lsl | lsr | lslr | lsrr | halt | gov | cov
deriving DecidableEq, Repr

/-- The five operand-type classes (R87). -/
inductive OperandClass where
  /-- N: no operand, the field is zero. -/
  | none
  /-- I: first register and immediate. -/
  | immediate
  /-- R: first and second register. -/
  | register
  /-- M: data register and address register. -/
  | memory
  /-- B: tested register and label rank. -/
  | branch
deriving DecidableEq, Repr

/-- Every mnemonic, in the order R89 numbers them. -/
def Mnemonic.all : List Mnemonic :=
  [.ass, .movf, .movt, .add, .addi, .sub, .subi,
   .not, .and, .or, .gt, .lt, .ge, .le, .eq,
   .load, .str, .cfb, .bez, .bnz, .b,
   .lsl, .lsr, .lslr, .lsrr, .halt, .gov, .cov]

/-- The class of each opcode (R87). -/
def Mnemonic.operandClass : Mnemonic → OperandClass
  | .ass => .immediate
  | .movf => .register
  | .movt => .register
  | .add => .register
  | .addi => .immediate
  | .sub => .register
  | .subi => .immediate
  | .not => .none
  | .and => .register
  | .or => .register
  | .gt => .register
  | .lt => .register
  | .ge => .register
  | .le => .register
  | .eq => .register
  | .load => .memory
  | .str => .memory
  | .cfb => .none
  | .bez => .branch
  | .bnz => .branch
  | .b => .branch
  | .lsl => .immediate
  | .lsr => .immediate
  | .lslr => .register
  | .lsrr => .register
  | .halt => .none
  | .gov => .none
  | .cov => .none

/-- A decoded instruction (R22, R91). `a` is the first-operand register, `r` the second register of
classes R and M, `imm` the immediate of class I and `rank` the label rank of class B. Class N has the
accumulator as its implied operand (R96). `b` keeps the register its syntax names and its rule
ignores (R96, R137). -/
inductive Instr where
  | ass (a : RegIdx) (imm : OpField)
  | movf (a r : RegIdx)
  | movt (a r : RegIdx)
  | add (a r : RegIdx)
  | addi (a : RegIdx) (imm : OpField)
  | sub (a r : RegIdx)
  | subi (a : RegIdx) (imm : OpField)
  | not
  | and (a r : RegIdx)
  | or (a r : RegIdx)
  | gt (a r : RegIdx)
  | lt (a r : RegIdx)
  | ge (a r : RegIdx)
  | le (a r : RegIdx)
  | eq (a r : RegIdx)
  | load (a r : RegIdx)
  | str (a r : RegIdx)
  | cfb
  | bez (a : RegIdx) (rank : OpField)
  | bnz (a : RegIdx) (rank : OpField)
  | b (a : RegIdx) (rank : OpField)
  | lsl (a : RegIdx) (imm : OpField)
  | lsr (a : RegIdx) (imm : OpField)
  | lslr (a r : RegIdx)
  | lsrr (a r : RegIdx)
  | halt
  | gov
  | cov
deriving DecidableEq, Repr

/-- The mnemonic of an instruction. -/
def Instr.mnemonic : Instr → Mnemonic
  | .ass _ _ => .ass
  | .movf _ _ => .movf
  | .movt _ _ => .movt
  | .add _ _ => .add
  | .addi _ _ => .addi
  | .sub _ _ => .sub
  | .subi _ _ => .subi
  | .not => .not
  | .and _ _ => .and
  | .or _ _ => .or
  | .gt _ _ => .gt
  | .lt _ _ => .lt
  | .ge _ _ => .ge
  | .le _ _ => .le
  | .eq _ _ => .eq
  | .load _ _ => .load
  | .str _ _ => .str
  | .cfb => .cfb
  | .bez _ _ => .bez
  | .bnz _ _ => .bnz
  | .b _ _ => .b
  | .lsl _ _ => .lsl
  | .lsr _ _ => .lsr
  | .lslr _ _ => .lslr
  | .lsrr _ _ => .lsrr
  | .halt => .halt
  | .gov => .gov
  | .cov => .cov

/-- The first-operand register index, the entry's `asel`: 0 for class N (R99). -/
def Instr.firstOperand : Instr → RegIdx
  | .ass a _ => a
  | .movf a _ => a
  | .movt a _ => a
  | .add a _ => a
  | .addi a _ => a
  | .sub a _ => a
  | .subi a _ => a
  | .not => 0#4
  | .and a _ => a
  | .or a _ => a
  | .gt a _ => a
  | .lt a _ => a
  | .ge a _ => a
  | .le a _ => a
  | .eq a _ => a
  | .load a _ => a
  | .str a _ => a
  | .cfb => 0#4
  | .bez a _ => a
  | .bnz a _ => a
  | .b a _ => a
  | .lsl a _ => a
  | .lsr a _ => a
  | .lslr a _ => a
  | .lsrr a _ => a
  | .halt => 0#4
  | .gov => 0#4
  | .cov => 0#4

/-- The operand field `F`: zero, the immediate, the second register or the rank, by class (R88, R99). -/
def Instr.operandField : Instr → OpField
  | .ass _ imm => imm
  | .movf _ r => r
  | .movt _ r => r
  | .add _ r => r
  | .addi _ imm => imm
  | .sub _ r => r
  | .subi _ imm => imm
  | .not => 0#4
  | .and _ r => r
  | .or _ r => r
  | .gt _ r => r
  | .lt _ r => r
  | .ge _ r => r
  | .le _ r => r
  | .eq _ r => r
  | .load _ r => r
  | .str _ r => r
  | .cfb => 0#4
  | .bez _ rank => rank
  | .bnz _ rank => rank
  | .b _ rank => rank
  | .lsl _ imm => imm
  | .lsr _ imm => imm
  | .lslr _ r => r
  | .lsrr _ r => r
  | .halt => 0#4
  | .gov => 0#4
  | .cov => 0#4

/-- The register indices an instruction's rule reads or writes, the first operand before the second:
those the control sequencer checks against `NREG` (R53, R94, R153). `b`, `halt` and `cov` name none
(R137, R143, R145); the other class-N instructions name the accumulator, index 0. -/
def Instr.registers : Instr → List RegIdx
  | .ass a _ => [a]
  | .movf a r => [a, r]
  | .movt a r => [a, r]
  | .add a r => [a, r]
  | .addi a _ => [a]
  | .sub a r => [a, r]
  | .subi a _ => [a]
  | .not => [0#4]
  | .and a r => [a, r]
  | .or a r => [a, r]
  | .gt a r => [a, r]
  | .lt a r => [a, r]
  | .ge a r => [a, r]
  | .le a r => [a, r]
  | .eq a r => [a, r]
  | .load a r => [a, r]
  | .str a r => [a, r]
  | .cfb => [0#4]
  | .bez a _ => [a]
  | .bnz a _ => [a]
  | .b _ _ => []
  | .lsl a _ => [a]
  | .lsr a _ => [a]
  | .lslr a r => [a, r]
  | .lsrr a r => [a, r]
  | .halt => []
  | .gov => [0#4]
  | .cov => []

end Sys2Proof
end

