-- ==== Sys2Proof/Config.lean ====
section
/-! DEFINITION. What an implementation fixes: the sizes, the opcode map (R14, R89) and the two text
formats the spec leaves open (D27, D28). -/

namespace Sys2Proof

/-- The data memory's size, 256 Cells (R10). -/
def Config.memSize : Nat := 256

/-- The greatest register count, 16 (R11). -/
def Config.maxRegisters : Nat := 16

/-- The greatest program length, 256 (R12). -/
def Config.maxProgram : Nat := 256

/-- The greatest label count, 16, the size of the branch-target table (R13, R37). -/
def Config.maxLabels : Nat := 16

/-- `OPCODE_MAP`: the 5-bit value of each mnemonic, a parameter (R14). -/
structure OpcodeMap where
  ass : Opcode
  movf : Opcode
  movt : Opcode
  add : Opcode
  addi : Opcode
  sub : Opcode
  subi : Opcode
  not : Opcode
  and : Opcode
  or : Opcode
  gt : Opcode
  lt : Opcode
  ge : Opcode
  le : Opcode
  eq : Opcode
  load : Opcode
  str : Opcode
  cfb : Opcode
  bez : Opcode
  bnz : Opcode
  b : Opcode
  lsl : Opcode
  lsr : Opcode
  lslr : Opcode
  lsrr : Opcode
  halt : Opcode
  gov : Opcode
  cov : Opcode
deriving DecidableEq, Repr

/-- The value an opcode map gives a mnemonic. -/
def OpcodeMap.code (m : OpcodeMap) : Mnemonic → Opcode
  | .ass => m.ass
  | .movf => m.movf
  | .movt => m.movt
  | .add => m.add
  | .addi => m.addi
  | .sub => m.sub
  | .subi => m.subi
  | .not => m.not
  | .and => m.and
  | .or => m.or
  | .gt => m.gt
  | .lt => m.lt
  | .ge => m.ge
  | .le => m.le
  | .eq => m.eq
  | .load => m.load
  | .str => m.str
  | .cfb => m.cfb
  | .bez => m.bez
  | .bnz => m.bnz
  | .b => m.b
  | .lsl => m.lsl
  | .lsr => m.lsr
  | .lslr => m.lslr
  | .lsrr => m.lsrr
  | .halt => m.halt
  | .gov => m.gov
  | .cov => m.cov

/-- The spec's default map: 1 to 28 in the order of the semantics table (R89, D5). -/
def OpcodeMap.default : OpcodeMap where
  ass := 1
  movf := 2
  movt := 3
  add := 4
  addi := 5
  sub := 6
  subi := 7
  not := 8
  and := 9
  or := 10
  gt := 11
  lt := 12
  ge := 13
  le := 14
  eq := 15
  load := 16
  str := 17
  cfb := 18
  bez := 19
  bnz := 20
  b := 21
  lsl := 22
  lsr := 23
  lslr := 24
  lsrr := 25
  halt := 26
  gov := 27
  cov := 28

/-- `TRACE_FORMAT`: the text of a trace line from the pc value, the accumulator value and the
annotation. The spec leaves it open (R167, D27), so it has no body. -/
opaque Config.traceFormat : Byte → Byte → Text → Text

/-- `LUT_FORMAT`: the text of the lookup-table artifact from the branch-target table. The spec leaves
it open (R103, D28), so it has no body. -/
opaque Config.lutFormat : Vector Byte 16 → Text

end Sys2Proof
end

