-- ==== Sys2Proof/WellFormed.lean ====
section
/-! DEFINITION. Static checks: what makes an instruction encodable, an opcode map admissible and a
set of register indices fit a register file. -/

namespace Sys2Proof

/-- An opcode map is admissible: injective, and every value in [1,28] (R14). -/
abbrev OpcodeMap.Valid (m : OpcodeMap) : Prop :=
  (Mnemonic.all.map m.code).Nodup ∧ ∀ k ∈ Mnemonic.all, 1 ≤ (m.code k).toNat ∧ (m.code k).toNat ≤ 28

/-- The immediate of an instruction is in the range its rule gives it: [0,7] for LSL and LSR, every
4-bit value otherwise (R93, R109). -/
abbrev Instr.WellFormed (i : Instr) : Prop :=
  (i.mnemonic = .lsl ∨ i.mnemonic = .lsr) → i.operandField.toNat ≤ 7

/-- Every register index the instruction's rule names is below `nreg` (R27, R94). -/
abbrev Instr.FitsRegisters (nreg : Nat) (i : Instr) : Prop :=
  ∀ j ∈ i.registers, j.toNat < nreg

end Sys2Proof
end

