-- ==== Sys2Proof/Decode.lean ====
section
/-! DEFINITION. The instruction decoder (R85 to R98) and, after it, the encoder (R99, R102). -/

namespace Sys2Proof

/-- One slot of the instruction store: the first-operand select and the 9-bit word (R86). -/
structure Entry where
  asel : RegIdx
  word : InstrWord
deriving DecidableEq, Repr

/-- Why the decoder rejects an entry (R48, R91). Each is a fault the sequencer takes, and each is a
case the spec decides. -/
inductive DecodeFault where
  /-- The opcode field names no opcode (R90). -/
  | illegalOpcode
  /-- A class-N entry with a nonzero field or a nonzero `asel` (R92). -/
  | reservedOperandField
  /-- An LSL or LSR word whose field is above 7 (R93). -/
  | shiftOutOfRange
deriving DecidableEq, Repr

/-- The opcode field `w[8:4]` (R85). -/
def opcodeField (w : InstrWord) : Opcode := w.extractLsb' 4 5

/-- The operand field `w[3:0]` (R85). -/
def fieldOf (w : InstrWord) : OpField := w.extractLsb' 0 4

/-- The mnemonic an opcode value stands for, if any (R91). -/
def OpcodeMap.mnemonic? (m : OpcodeMap) (o : Opcode) : Option Mnemonic :=
  Mnemonic.all.find? fun k => m.code k == o

/-- A class-N entry: its field and its `asel` must be zero (R92). -/
def decodeNone (asel : RegIdx) (f : OpField) (i : Instr) : Except DecodeFault Instr :=
  if f = 0#4 ∧ asel = 0#4 then .ok i else .error .reservedOperandField

/-- An LSL or LSR entry: its immediate must be in [0,7] (R93). -/
def decodeShift (f : OpField) (i : Instr) : Except DecodeFault Instr :=
  if f.toNat ≤ 7 then .ok i else .error .shiftOutOfRange

/-- The operands of a known mnemonic, by its class (R88, R91, R96). -/
def decodeOperands (op : Mnemonic) (asel : RegIdx) (f : OpField) : Except DecodeFault Instr :=
  match op with
  | .ass => .ok (.ass asel f)
  | .movf => .ok (.movf asel f)
  | .movt => .ok (.movt asel f)
  | .add => .ok (.add asel f)
  | .addi => .ok (.addi asel f)
  | .sub => .ok (.sub asel f)
  | .subi => .ok (.subi asel f)
  | .not => decodeNone asel f .not
  | .and => .ok (.and asel f)
  | .or => .ok (.or asel f)
  | .gt => .ok (.gt asel f)
  | .lt => .ok (.lt asel f)
  | .ge => .ok (.ge asel f)
  | .le => .ok (.le asel f)
  | .eq => .ok (.eq asel f)
  | .load => .ok (.load asel f)
  | .str => .ok (.str asel f)
  | .cfb => decodeNone asel f .cfb
  | .bez => .ok (.bez asel f)
  | .bnz => .ok (.bnz asel f)
  | .b => .ok (.b asel f)
  | .lsl => decodeShift f (.lsl asel f)
  | .lsr => decodeShift f (.lsr asel f)
  | .lslr => .ok (.lslr asel f)
  | .lsrr => .ok (.lsrr asel f)
  | .halt => decodeNone asel f .halt
  | .gov => decodeNone asel f .gov
  | .cov => decodeNone asel f .cov

/-- `DECODE`: the instruction of an entry, or the fault its decoding raises (R48, R91). -/
def decode (m : OpcodeMap) (e : Entry) : Except DecodeFault Instr :=
  match m.mnemonic? (opcodeField e.word) with
  | none => .error .illegalOpcode
  | some op => decodeOperands op e.asel (fieldOf e.word)

/-- An entry made from a bare 9-bit word, which carries no loader information, has `asel = 0` (R86). -/
def bareEntry (w : InstrWord) : Entry where
  asel := 0#4
  word := w

/-- The 9-bit word held by a number whose low `nbits` bits the opcode table numbers: bits from
`nbits` on are zero, and a word has no bit above bit 8 (R85). -/
def tableWord (nbits w : Nat) : InstrWord := BitVec.ofNat 9 (w % 2 ^ nbits)

/-- What the decoder reads from a bare word numbered as the opcode table numbers it, under the default
opcode map. -/
def decodeTableWord (nbits w : Nat) : Option Instr :=
  (decode .default (bareEntry (tableWord nbits w))).toOption

/-- The 9-bit word of an instruction: its opcode value, then its operand field (R85, R99). -/
def encodeWord (m : OpcodeMap) (i : Instr) : InstrWord := m.code i.mnemonic ++ i.operandField

/-- The encoder: the entry of an instruction (R99). -/
def encode (m : OpcodeMap) (i : Instr) : Entry where
  asel := i.firstOperand
  word := encodeWord m i

/-- The textual form of a word: nine digits, the most significant bit first (R17, R102). -/
def wordText (w : InstrWord) : Text :=
  (List.range 9).map fun k => if w.getMsbD k then '1' else '0'

end Sys2Proof
end

