-- ==== Sys2Proof/Machine/State.lean ====
section
/-! DEFINITION. The machine's state as plain data (R25 to R41), the reasons a step can stop, and the
state after reset (R60 to R65). -/

namespace Sys2Proof.Machine

/-- The data memory (R39): address and byte pairs, addresses strictly rising, no byte equal to what an
unlisted address reads as. -/
abbrev Memory := List Host.Cell

/-- What an unlisted address reads as: the reset value of a cell the preload does not name (R63, D12). -/
def Memory.unlisted : Byte := 0#8

/-- The canonical form: addresses strictly rising, below 256 (R66), and no listed default. -/
abbrev Memory.wf (m : Memory) : Prop :=
  m.Pairwise (fun c d => c.1 < d.1) ∧ ∀ c ∈ m, c.1 < Config.memSize ∧ c.2 ≠ Memory.unlisted

/-- The debug annotation table, a partial map from instruction index to text (R38), indices strictly
rising. -/
abbrev DebugTable := List (Nat × Text)

/-- The table's form: indices strictly rising, each one that the pc can hold (R12, R38). -/
abbrev DebugTable.wf (d : DebugTable) : Prop :=
  d.Pairwise (fun c e => c.1 < e.1) ∧ ∀ c ∈ d, c.1 < Config.maxProgram

/-- The spec's fault reasons (R148): what a `Faulted` status records. -/
inductive FaultReason where
  /-- Code 1: a step starts with `pc >= L` (R149). -/
  | fetchOutOfRange
  /-- Code 2: the pc increment from 255 (R150). -/
  | pcOverflow
  /-- Code 3: minuend below subtrahend (R151). -/
  | subtractionUnderflow
  /-- Code 4: shift amount above 7 (R152). -/
  | shiftOutOfRange
  /-- Code 5: a register index at or above `NREG` (R153). -/
  | registerIndexOutOfBounds
  /-- Code 6: a data address above 255. No step raises it (R75, R154). -/
  | memoryIndexOutOfBounds
  /-- Code 7: an opcode field that names no opcode (R155). -/
  | illegalOpcode
  /-- Code 8: a class-N entry with a nonzero field or `asel` (R156). -/
  | reservedOperandField
deriving DecidableEq, Repr

/-- The run status (R40). -/
inductive Status where
  | running
  | halted
  | faulted (reason : FaultReason)
deriving DecidableEq, Repr

/-- One event of the trace: the pc value, the accumulator value and the annotation text (R41, R57). -/
structure TraceEvent where
  pc : Byte
  acc : Byte
  text : Text
deriving DecidableEq, Repr

/-- Everything the spec gives the machine (R25 to R42): what changes in a run, the program image, and
the parameters a run fixes (R65). -/
structure State where
  /-- The register file `x[0]` to `x[NREG-1]`; `NREG` is the list's length (R11, R25). Register 0 is
  the accumulator (R28). -/
  regs : List Byte
  /-- The program counter (R29). -/
  pc : Byte
  /-- The sticky overflow flag (R33). -/
  ovf : Bool
  /-- The data memory `MEM` (R39). -/
  mem : Memory
  /-- The run status (R40). -/
  status : Status
  /-- The trace `TRACE`, oldest event first (R41). -/
  trace : List TraceEvent
  /-- The instruction store `IMEM`; `L` is the list's length (R12, R36). -/
  imem : List Entry
  /-- The branch-target table `BTT` (R37). -/
  btt : Vector Byte 16
  /-- The label count `NLAB` (R13). -/
  nlab : Nat
  /-- The debug annotation table `DBG` (R38). -/
  dbg : DebugTable
  /-- The parameter `OPCODE_MAP` (R14). -/
  opcodeMap : OpcodeMap
  /-- The report window's first address `MEM_MIN` (R15). -/
  memMin : Byte
  /-- The report window's last address `MEM_MAX` (R15). -/
  memMax : Byte
deriving DecidableEq, Repr

/-- The one way a step has no next state. -/
inductive Fault where
  /-- Raised by `step` alone, when `status` is `Halted` or `Faulted`: the machine has no step there
  (R52), and the run is over. Safe: nothing happens in the hardware either. -/
  | runEnded
deriving DecidableEq, Repr

/-- Why an instruction has no meaning in the model. -/
inductive Refusal where
  /-- Raised by an arm of `exec` whose instruction has no meaning yet; no arm is left so. Safe: nothing
  is claimed of it. -/
  | notModelled (mnemonic : String)
deriving DecidableEq, Repr

/-- The machine right after reset (R60 to R64), before a program image is installed (R65). The register
count and the report window are the model's choices (the driver's, R170), and the opcode map is the
spec's default (R89). -/
def State.reset : State where
  regs := List.replicate 16 0
  pc := 0
  ovf := false
  mem := []
  status := .running
  trace := []
  imem := []
  btt := Vector.replicate 16 0
  nlab := 0
  dbg := []
  opcodeMap := .default
  memMin := 0
  memMax := 255

end Sys2Proof.Machine
end

