-- ==== Sys2Proof/Machine/Ops.lean ====
section
/-! DEFINITION. The named operations on the machine's state: the component interfaces of R43 to R47 and
R50, raising a fault (R21, R157) and halting (R56). -/

namespace Sys2Proof.Machine

/-- The three outcomes of one step of this machine. -/
abbrev Result := Host.Outcome State Fault Refusal

/-! ### Data memory -/

/-- The byte a memory list holds at an address. -/
def Memory.byteAt (m : Memory) (addr : Nat) : Byte :=
  match m with
  | [] => Memory.unlisted
  | (k, v) :: rest => if k = addr then v else Memory.byteAt rest addr

/-- The list with a byte stored at an address, in canonical form. -/
def Memory.put (m : Memory) (addr : Nat) (v : Byte) : Memory :=
  match m with
  | [] => if v = Memory.unlisted then [] else [(addr, v)]
  | (k, u) :: rest =>
    if addr < k then
      if v = Memory.unlisted then (k, u) :: rest else (addr, v) :: (k, u) :: rest
    else if addr = k then
      if v = Memory.unlisted then rest else (addr, v) :: rest
    else (k, u) :: Memory.put rest addr v

/-- `MemRead(addr, 1)` (R20, R50, R71). -/
def Memory.read (m : Memory) (addr : Byte) : Byte := m.byteAt addr.toNat

/-- `MemWrite(addr, 1, v)` (R20, R50, R71). -/
def Memory.write (m : Memory) (addr v : Byte) : Memory := m.put addr.toNat v

/-! ### Debug annotation table -/

/-- `DBG(k)` (R19, R38). -/
def DebugTable.find? (d : DebugTable) (k : Nat) : Option Text :=
  match d with
  | [] => none
  | (j, t) :: rest => if j = k then some t else DebugTable.find? rest k

/-- The table with an annotation attached to an index; a second one replaces the first (R107). -/
def DebugTable.attach (d : DebugTable) (k : Nat) (t : Text) : DebugTable :=
  match d with
  | [] => [(k, t)]
  | (j, u) :: rest =>
    if k < j then (k, t) :: (j, u) :: rest
    else if k = j then (k, t) :: rest
    else (j, u) :: DebugTable.attach rest k t

/-! ### Register file and accumulator -/

/-- `NREG`, the number of registers (R11, R25). -/
def State.nreg (s : State) : Nat := s.regs.length

/-- `RF.read(i)`: the value of register `i`, or nothing where no register has that index (R27, R45). -/
def State.reg? (s : State) (i : RegIdx) : Option Byte := s.regs[i.toNat]?

/-- The value of register `i`, for an index the sequencer has checked (R53). -/
def State.reg (s : State) (i : RegIdx) : Byte := (s.reg? i).getD 0

/-- `RF.write(i, v)`, for an index the sequencer has checked (R45, R53). -/
def State.setReg (s : State) (i : RegIdx) (v : Byte) : State := { s with regs := s.regs.set i.toNat v }

/-- The accumulator, register 0 (R28, R46). -/
def State.acc (s : State) : Byte := s.reg 0#4

/-! ### Program counter -/

/-- `PC.load(t)` (R43). -/
def State.setPc (s : State) (t : Byte) : State := { s with pc := t }

/-- `PC.increment()`: nothing at 255, where the Cell increment fails (R24, R43). -/
def State.incPc? (s : State) : Option State :=
  if s.pc = 255#8 then none else some (s.setPc (s.pc + 1#8))

/-! ### Overflow flag and memory -/

/-- `OVF.set()` and `OVF.clear()` (R44). -/
def State.setOvf (s : State) (b : Bool) : State := { s with ovf := b }

/-- The state with another data memory. -/
def State.setMem (s : State) (m : Memory) : State := { s with mem := m }

/-! ### Ending a run -/

/-- `raise Fault(reason)`: the status records the reason and all else stays as it is (R21, R157, R161).
The one operation that takes a fault. There is no return from one (R162). -/
def State.raiseFault (s : State) (r : FaultReason) : State := { s with status := .faulted r }

/-- `halt`: the status becomes `Halted` and all else stays as it is (R21, R56). -/
def State.halt (s : State) : State := { s with status := .halted }

/-- The numeric code of a fault reason (R148, D16). -/
def FaultReason.code : FaultReason → Nat
  | .fetchOutOfRange => 1
  | .pcOverflow => 2
  | .subtractionUnderflow => 3
  | .shiftOutOfRange => 4
  | .registerIndexOutOfBounds => 5
  | .memoryIndexOutOfBounds => 6
  | .illegalOpcode => 7
  | .reservedOperandField => 8

/-- The fault reason of a decoder rejection (R90, R92, R93). -/
def decodeReason : DecodeFault → FaultReason
  | .illegalOpcode => .illegalOpcode
  | .reservedOperandField => .reservedOperandField
  | .shiftOutOfRange => .shiftOutOfRange

/-! ### Fetch -/

/-- `FETCH(pc)`: the entry at the pc, or the fault where `pc >= L` (R47, R149). -/
def fetch (s : State) : Except FaultReason Entry :=
  match s.imem[s.pc.toNat]? with
  | some e => .ok e
  | none => .error .fetchOutOfRange

/-- Fetch and decode: the instruction at the pc, or the first fault in the order of R160. -/
def fetchDecode (s : State) : Except FaultReason Instr :=
  match fetch s with
  | .error r => .error r
  | .ok e =>
    match decode s.opcodeMap e with
    | .error d => .error (decodeReason d)
    | .ok i => .ok i

/-- The instruction store with an entry at index `k`. A shorter store is first lengthened with entries
of word 0, whose opcode is illegal (R90). -/
def placeEntry (store : List Entry) (k : Nat) (e : Entry) : List Entry :=
  match k, store with
  | 0, [] => [e]
  | 0, _ :: rest => e :: rest
  | n + 1, [] => bareEntry 0#9 :: placeEntry [] n e
  | n + 1, d :: rest => d :: placeEntry rest n e

/-- The state with a bare word at the pc of a running machine. -/
def State.placeWord (s : State) (w : InstrWord) : State :=
  { s with imem := placeEntry s.imem s.pc.toNat (bareEntry w), status := .running }

end Sys2Proof.Machine
end

