-- ==== Sys2Proof/Machine/Flags.lean ====
section
/-! DEFINITION. Signals, the sticky overflow flag, and what the control sequencer does after an
instruction's own effect: steps 3 to 5 of the execution cycle (R53). -/

namespace Sys2Proof.Machine

/-- A step's result signal (R21). -/
inductive Signal where
  | none
  | overflow
  | branch
deriving DecidableEq, Repr

/-- The signal of an ALU result: `OVERFLOW` exactly when its overflow output is set (R49). -/
def signalOf (ovfOut : Bool) : Signal := if ovfOut then .overflow else .none

/-- Step 4: the flag is set on `OVERFLOW` and otherwise kept (R33, R53). -/
def State.latchOverflow (s : State) (sig : Signal) : State :=
  match sig with
  | .none => s
  | .overflow => s.setOvf true
  | .branch => s

/-- The events a step appends to the trace when it ends in `s`: one if the new pc is annotated (R57). -/
def State.traceEvents (s : State) : List TraceEvent :=
  match s.dbg.find? s.pc.toNat with
  | .none => []
  | .some text => [⟨s.pc, s.acc, text⟩]

/-- Step 5: append to the trace (R53, R57). -/
def State.emitTrace (s : State) : State := { s with trace := s.trace ++ s.traceEvents }

/-- Steps 3 to 5, for a signal other than `BRANCH`: the pc increment, which faults at 255 with the
instruction's writes made and the flag not yet set (R54, R150), then the flag, then the trace. -/
def retireNext (sig : Signal) (s : State) : Result :=
  match s.incPc? with
  | .none => .next (s.raiseFault .pcOverflow)
  | .some t => .next (t.latchOverflow sig).emitTrace

/-- Steps 3 to 5 after an instruction's own effect (R31, R53). A taken branch is not incremented. -/
def retire (sig : Signal) (s : State) : Result :=
  match sig with
  | .none => retireNext .none s
  | .overflow => retireNext .overflow s
  | .branch => .next s.emitTrace

end Sys2Proof.Machine
end

