-- ==== Sys2Proof/Machine/Operands.lean ====
section
/-! DEFINITION. The operand forms (R88): register, immediate, register-indirect address and branch
target; the index check (R53); and the ALU (R49) with the writing of its result. -/

namespace Sys2Proof.Machine

/-- Every index names a register (R27). -/
def State.hasRegs (s : State) (js : List RegIdx) : Bool := js.all fun j => decide (j.toNat < s.nreg)

/-- The sequencer's index check: the instruction's effect, or the fault where an index it names is at
or above `NREG` (R53, R153). -/
def checkRegs (js : List RegIdx) (s : State) (effect : Result) : Result :=
  if s.hasRegs js then effect else .next (s.raiseFault .registerIndexOutOfBounds)

/-- `imm = zext_8(F)` (R88). -/
def immediate (f : OpField) : Byte := f.setWidth 8

/-- The data address of a class-M instruction: the value of its address register (R134). -/
def effectiveAddress (s : State) (r : RegIdx) : Byte := s.reg r

/-- The target of a class-B instruction: `BTT[F]` (R95). -/
def branchTarget (s : State) (rank : OpField) : Byte := s.btt[rank.toNat]

/-- The value 1 or 0 (R126, R144). -/
def boolByte (b : Bool) : Byte := if b then 1 else 0

/-- What the ALU computes (R49). -/
inductive AluOp where
  /-- The second operand itself: ASS, MOVF, MOVT, LOAD, GOV. -/
  | pass
  | add
  | sub
  | not
  | and
  | or
  | gt
  | lt
  | ge
  | le
  | eq
  /-- Bit 7 of the first operand. -/
  | bit7
  | shl
  | shr
deriving DecidableEq, Repr

/-- An ALU result and its overflow output (R49). -/
structure AluOut where
  result : Byte
  ovfOut : Bool
deriving DecidableEq, Repr

/-- An ALU value without overflow. -/
def aluValue (v : Byte) : Except FaultReason AluOut := .ok ⟨v, false⟩

/-- The sum modulo 256, with overflow where the exact sum is 256 or more (R118, R119, R122). -/
def aluAdd (p q : Byte) : Except FaultReason AluOut :=
  .ok ⟨BitVec.ofNat 8 (p.toNat + q.toNat), decide (256 ≤ p.toNat + q.toNat)⟩

/-- The exact difference, or the underflow fault (R120, R121, R122). -/
def aluSub (p q : Byte) : Except FaultReason AluOut :=
  if p.toNat < q.toNat then .error .subtractionUnderflow
  else aluValue (BitVec.ofNat 8 (p.toNat - q.toNat))

/-- A shift by an amount in [0,7], or the shift fault (R139 to R142). -/
def aluShift (q v : Byte) : Except FaultReason AluOut :=
  if 7 < q.toNat then .error .shiftOutOfRange else aluValue v

/-- `ALU(op, p, q)` (R49): exact on naturals, then narrowed to a Cell (R18). -/
def alu (op : AluOp) (p q : Byte) : Except FaultReason AluOut :=
  match op with
  | .pass => aluValue q
  | .add => aluAdd p q
  | .sub => aluSub p q
  | .not => aluValue (~~~p)
  | .and => aluValue (p &&& q)
  | .or => aluValue (p ||| q)
  | .gt => aluValue (boolByte (decide (p.toNat > q.toNat)))
  | .lt => aluValue (boolByte (decide (p.toNat < q.toNat)))
  | .ge => aluValue (boolByte (decide (p.toNat ≥ q.toNat)))
  | .le => aluValue (boolByte (decide (p.toNat ≤ q.toNat)))
  | .eq => aluValue (boolByte (decide (p.toNat = q.toNat)))
  | .bit7 => aluValue (BitVec.ofNat 8 (p.toNat >>> 7))
  | .shl => aluShift q (BitVec.ofNat 8 (p.toNat <<< q.toNat))
  | .shr => aluShift q (BitVec.ofNat 8 (p.toNat >>> q.toNat))

/-- Write an ALU result to register `d` and retire, or take the ALU's fault with nothing written
(R53, R55). -/
def writeAlu (d : RegIdx) (out : Except FaultReason AluOut) (s : State) : Result :=
  match out with
  | .error r => .next (s.raiseFault r)
  | .ok o => retire (signalOf o.ovfOut) (s.setReg d o.result)

/-- The form `x[a] <- ALU(op, x[a], imm)` of class I. -/
def aluImmediate (op : AluOp) (a : RegIdx) (imm : OpField) (s : State) : Result :=
  checkRegs [a] s (writeAlu a (alu op (s.reg a) (immediate imm)) s)

/-- The form `x[a] <- ALU(op, x[a], x[r])` of class R. -/
def aluRegister (op : AluOp) (a r : RegIdx) (s : State) : Result :=
  checkRegs [a, r] s (writeAlu a (alu op (s.reg a) (s.reg r)) s)

/-- The form `x[0] <- ALU(op, x[0])` of class N. -/
def aluAccumulator (op : AluOp) (s : State) : Result :=
  checkRegs [0#4] s (writeAlu 0#4 (alu op s.acc s.acc) s)

/-- A branch: to `BTT[rank]` with signal `BRANCH` where it is taken, else to the next instruction
(R31, R138). -/
def branchIf (taken : Bool) (rank : OpField) (s : State) : Result :=
  if taken then retire .branch (s.setPc (branchTarget s rank)) else retire .none s

end Sys2Proof.Machine
end

