-- ==== Sys2Proof/Machine/Arithmetic.lean ====
section
/-! DEFINITION. Arithmetic: ADD, ADDI, SUB, SUBI (R118 to R122). -/

namespace Sys2Proof.Machine

/-- ADD (R118): `x[a] <- (x[a] + x[r]) mod 256`, `OVERFLOW` where the sum is 256 or more. -/
def execAdd (a r : RegIdx) (s : State) : Result := aluRegister .add a r s

/-- ADDI (R119): `x[a] <- (x[a] + imm) mod 256`, `OVERFLOW` where the sum is 256 or more. -/
def execAddi (a : RegIdx) (imm : OpField) (s : State) : Result := aluImmediate .add a imm s

/-- SUB (R120): `x[a] <- x[a] - x[r]`, or the underflow fault. -/
def execSub (a r : RegIdx) (s : State) : Result := aluRegister .sub a r s

/-- SUBI (R121): `x[a] <- x[a] - imm`, or the underflow fault. -/
def execSubi (a : RegIdx) (imm : OpField) (s : State) : Result := aluImmediate .sub a imm s

end Sys2Proof.Machine
end

