-- ==== Sys2Proof/Machine/Branch.lean ====
section
/-! DEFINITION. Control transfer: BEZ, BNZ, B (R135 to R138). -/

namespace Sys2Proof.Machine

/-- BEZ (R135): to `BTT[rank]` if `x[a] == 0`. -/
def execBez (a : RegIdx) (rank : OpField) (s : State) : Result :=
  checkRegs [a] s (branchIf (decide (s.reg a = 0#8)) rank s)

/-- BNZ (R136): to `BTT[rank]` if `x[a] != 0`. -/
def execBnz (a : RegIdx) (rank : OpField) (s : State) : Result :=
  checkRegs [a] s (branchIf (decide (s.reg a ≠ 0#8)) rank s)

/-- B (R137): to `BTT[rank]`; no register is read or checked (D29). -/
def execB (_a : RegIdx) (rank : OpField) (s : State) : Result := branchIf true rank s

end Sys2Proof.Machine
end

