-- ==== Sys2Proof/Machine/LoadStore.lean ====
section
/-! DEFINITION. Loads and stores: LOAD, STR (R132 to R134). -/

namespace Sys2Proof.Machine

/-- LOAD (R132): `x[a] <- MEM[x[r]]`; the address is read before the register is written. -/
def execLoad (a r : RegIdx) (s : State) : Result :=
  checkRegs [a, r] s (writeAlu a (alu .pass (s.reg a) (s.mem.read (effectiveAddress s r))) s)

/-- STR (R133): `MEM[x[r]] <- x[a]`. -/
def execStr (a r : RegIdx) (s : State) : Result :=
  checkRegs [a, r] s (retire .none (s.setMem (s.mem.write (effectiveAddress s r) (s.reg a))))

end Sys2Proof.Machine
end

