-- ==== Sys2Proof/Machine/Logic.lean ====
section
/-! DEFINITION. Logic, comparison and bit extraction: NOT, AND, OR, GT, LT, GE, LE, EQ, CFB
(R123 to R131). -/

namespace Sys2Proof.Machine

/-- NOT (R123): `x[0] <- ~x[0]`. -/
def execNot (s : State) : Result := aluAccumulator .not s

/-- AND (R124): `x[a] <- x[a] & x[r]`. -/
def execAnd (a r : RegIdx) (s : State) : Result := aluRegister .and a r s

/-- OR (R125): `x[a] <- x[a] | x[r]`. -/
def execOr (a r : RegIdx) (s : State) : Result := aluRegister .or a r s

/-- GT (R126): `x[a] <- (x[a] > x[r]) ? 1 : 0`, unsigned. -/
def execGt (a r : RegIdx) (s : State) : Result := aluRegister .gt a r s

/-- LT (R127): `x[a] <- (x[a] < x[r]) ? 1 : 0`, unsigned. -/
def execLt (a r : RegIdx) (s : State) : Result := aluRegister .lt a r s

/-- GE (R128): `x[a] <- (x[a] >= x[r]) ? 1 : 0`, unsigned. -/
def execGe (a r : RegIdx) (s : State) : Result := aluRegister .ge a r s

/-- LE (R129): `x[a] <- (x[a] <= x[r]) ? 1 : 0`, unsigned. -/
def execLe (a r : RegIdx) (s : State) : Result := aluRegister .le a r s

/-- EQ (R130): `x[a] <- (x[a] == x[r]) ? 1 : 0`. -/
def execEq (a r : RegIdx) (s : State) : Result := aluRegister .eq a r s

/-- CFB (R131): `x[0] <- bit 7 of x[0]`. -/
def execCfb (s : State) : Result := aluAccumulator .bit7 s

end Sys2Proof.Machine
end

