-- ==== Sys2Proof/Machine/Move.lean ====
section
/-! DEFINITION. Data movement: ASS, MOVF, MOVT (R115 to R117). -/

namespace Sys2Proof.Machine

/-- ASS (R115): `x[a] <- imm`. -/
def execAss (a : RegIdx) (imm : OpField) (s : State) : Result := aluImmediate .pass a imm s

/-- MOVF (R116): `x[a] <- x[r]`. -/
def execMovf (a r : RegIdx) (s : State) : Result := aluRegister .pass a r s

/-- MOVT (R117): `x[r] <- x[a]`, the one class-R instruction that writes its second register. -/
def execMovt (a r : RegIdx) (s : State) : Result :=
  checkRegs [a, r] s (writeAlu r (alu .pass (s.reg r) (s.reg a)) s)

end Sys2Proof.Machine
end

