-- ==== Sys2Proof/Machine/Shift.lean ====
section
/-! DEFINITION. Shifts: LSL, LSR, LSLR, LSRR (R139 to R142). -/

namespace Sys2Proof.Machine

/-- LSL (R139): `x[a] <- (x[a] << imm) mod 256`. The decoder has refused an amount above 7 (R93); the
ALU's own check is the same fault. -/
def execLsl (a : RegIdx) (imm : OpField) (s : State) : Result := aluImmediate .shl a imm s

/-- LSR (R140): `x[a] <- x[a] >> imm`. -/
def execLsr (a : RegIdx) (imm : OpField) (s : State) : Result := aluImmediate .shr a imm s

/-- LSLR (R141): `x[a] <- (x[a] << x[r]) mod 256`, or the shift fault where `x[r] > 7`. -/
def execLslr (a r : RegIdx) (s : State) : Result := aluRegister .shl a r s

/-- LSRR (R142): `x[a] <- x[a] >> x[r]`, or the shift fault where `x[r] > 7`. -/
def execLsrr (a r : RegIdx) (s : State) : Result := aluRegister .shr a r s

end Sys2Proof.Machine
end

