-- ==== Sys2Proof/Machine/System.lean ====
section
/-! DEFINITION. System instructions: HALT, GOV, COV (R143 to R145). -/

namespace Sys2Proof.Machine

/-- HALT (R143): the step ends at once with status `Halted`; the pc, the flag and the trace stay (R56). -/
def execHalt (s : State) : Result := .next s.halt

/-- GOV (R144): `x[0] <- zext_8(ovf)`; the flag is not written. -/
def execGov (s : State) : Result :=
  checkRegs [0#4] s (writeAlu 0#4 (alu .pass s.acc (boolByte s.ovf)) s)

/-- COV (R145): `ovf <- 0`. -/
def execCov (s : State) : Result := retire .none (s.setOvf false)

end Sys2Proof.Machine
end

