-- ==== Sys2Proof/Machine/Dispatch.lean ====
section
/-! DEFINITION. What an instruction does: the rest of the execution cycle after decode (R53). -/

namespace Sys2Proof.Machine

def exec (i : Instr) (s : State) : Host.Outcome State Fault Refusal :=
  match i with
  | .ass a imm => Sys2Proof.Machine.execAss a imm s
  | .movf a r => Sys2Proof.Machine.execMovf a r s
  | .movt a r => Sys2Proof.Machine.execMovt a r s
  | .add a r => Sys2Proof.Machine.execAdd a r s
  | .addi a imm => Sys2Proof.Machine.execAddi a imm s
  | .sub a r => Sys2Proof.Machine.execSub a r s
  | .subi a imm => Sys2Proof.Machine.execSubi a imm s
  | .not => Sys2Proof.Machine.execNot s
  | .and a r => Sys2Proof.Machine.execAnd a r s
  | .or a r => Sys2Proof.Machine.execOr a r s
  | .gt a r => Sys2Proof.Machine.execGt a r s
  | .lt a r => Sys2Proof.Machine.execLt a r s
  | .ge a r => Sys2Proof.Machine.execGe a r s
  | .le a r => Sys2Proof.Machine.execLe a r s
  | .eq a r => Sys2Proof.Machine.execEq a r s
  | .load a r => Sys2Proof.Machine.execLoad a r s
  | .str a r => Sys2Proof.Machine.execStr a r s
  | .cfb => Sys2Proof.Machine.execCfb s
  | .bez a rank => Sys2Proof.Machine.execBez a rank s
  | .bnz a rank => Sys2Proof.Machine.execBnz a rank s
  -- B ignores the register its syntax names (R137).
  | .b a rank => Sys2Proof.Machine.execB a rank s
  | .lsl a imm => Sys2Proof.Machine.execLsl a imm s
  | .lsr a imm => Sys2Proof.Machine.execLsr a imm s
  | .lslr a r => Sys2Proof.Machine.execLslr a r s
  | .lsrr a r => Sys2Proof.Machine.execLsrr a r s
  | .halt => Sys2Proof.Machine.execHalt s
  | .gov => Sys2Proof.Machine.execGov s
  | .cov => Sys2Proof.Machine.execCov s

end Sys2Proof.Machine
end

