-- ==== Sys2Proof/Machine/Step.lean ====
section
/-! DEFINITION. One step of the control sequencer (R51 to R53). -/

namespace Sys2Proof.Machine

/-- A step of a running machine: fetch and decode, then the instruction; a fetch or decode fault is
taken with all else unchanged (R53, R55). -/
def stepRunning (s : State) : Host.Outcome State Fault Refusal :=
  match fetchDecode s with
  | .error r => .next (s.raiseFault r)
  | .ok i => exec i s

/-- One step. It is defined only when the status is `Running` (R52). -/
def step (s : State) : Host.Outcome State Fault Refusal :=
  match s.status with
  | .running => stepRunning s
  | .halted => .fault .runEnded
  | .faulted _ => .fault .runEnded

/-- The state with a bare word, numbered as the opcode table numbers it, where `step` fetches next. -/
def State.withFetchWord (s : State) (nbits w : Nat) : State := s.placeWord (tableWord nbits w)

end Sys2Proof.Machine
end

