-- ==== Sys2Proof/Machine/Loader.lean ====
section
/-! DEFINITION. The assembler/loader and the encoder (R99 to R114), software that builds the program
image the hardware runs (R6). -/

namespace Sys2Proof.Machine

/-- Why a source text has no program image (R111, R112, R158). A LoadError is raised before any step
and is a refusal, not a hardware fault. -/
inductive LoadError where
  /-- The first token of an instruction line is no mnemonic (R108). -/
  | unknownOpcode
  /-- A register token is not in the register-name list (R109). -/
  | unknownRegister
  /-- An immediate or shift amount is above its bound (R109). -/
  | immediateOutOfRange
  /-- A label is declared twice (R106). -/
  | duplicateLabel
  /-- A branch names a label that is not declared (R110). -/
  | undeclaredLabel
  /-- An instruction line has another number of operands than its class fixes (R108, D24), or a token
  after the first opens like a comment and so is an extra operand (R105, D24). -/
  | operandCount
  /-- An immediate token is not a decimal digit string (R109, D23). -/
  | malformedImmediate
  /-- A line opens like a label declaration and is none (R106, D21). -/
  | malformedLabel
  /-- A `DEBUG` line without exactly one text token (R107, D22). -/
  | malformedDebug
  /-- A `DEBUG` line before any instruction (R107, D22). -/
  | debugBeforeInstruction
  /-- More than 256 instructions (R112). -/
  | tooManyInstructions
  /-- More than 16 labels (R112). -/
  | tooManyLabels
  /-- A label's execution address exceeds 255 (R112). -/
  | labelAddressTooLarge
  /-- The source is not UTF-8 text (R104). -/
  | notUtf8
deriving DecidableEq, Repr

/-! ### UTF-8 source text (R104) -/

/-- The code point `n`, if it is one: below 0x110000 and no surrogate. -/
def codePoint? (n : Nat) : Option Char := if n.isValidChar then some (Char.ofNat n) else none

/-- How a byte opens a code point of UTF-8: the count of continuation bytes to come, the bits of the
code point it gives, and the least code point of that length. -/
def utf8Lead? (b : Nat) : Option (Nat × Nat × Nat) :=
  if b < 0x80 then some (0, b, 0)
  else if b < 0xC0 then none
  else if b < 0xE0 then some (1, b - 0xC0, 0x80)
  else if b < 0xF0 then some (2, b - 0xE0, 0x800)
  else if b < 0xF8 then some (3, b - 0xF0, 0x10000)
  else none

/-- The bits a continuation byte of UTF-8 gives. -/
def utf8Continuation? (b : Nat) : Option Nat := if 0x80 ≤ b ∧ b < 0xC0 then some (b - 0x80) else none

/-- The text of the bytes, where `need` continuation bytes of a code point with the bits `acc` so far and
the least value `least` are still to come. `none` where the bytes are not UTF-8: a byte out of place, a
code point cut short, longer than it need be, or none at all. -/
def utf8From (need acc least : Nat) (src : List Byte) : Option Text :=
  match src with
  | [] => if need = 0 then some [] else none
  | b :: rest =>
    match need with
    | 0 =>
      match utf8Lead? b.toNat with
      | none => none
      | some (0, n, _) => (codePoint? n).bind fun c => (utf8From 0 0 0 rest).map (c :: ·)
      | some (k + 1, n, m) => utf8From (k + 1) n m rest
    | k + 1 =>
      match utf8Continuation? b.toNat with
      | none => none
      | some bits =>
        if k = 0 then
          if acc * 64 + bits < least then none
          else (codePoint? (acc * 64 + bits)).bind fun c => (utf8From 0 0 0 rest).map (c :: ·)
        else utf8From k (acc * 64 + bits) least rest

/-- The code points of a UTF-8 source text (R104). -/
def utf8Decode (src : List Byte) : Option Text := utf8From 0 0 0 src

/-! ### Tokens (R104) -/

/-- The characters that separate the tokens of a line: space, tab, vertical tab, form feed and carriage
return. -/
def isBlank (c : Char) : Bool := c == ' ' || c.toNat == 9 || (11 ≤ c.toNat && c.toNat ≤ 13)

/-- The source text cut at line feeds. -/
def splitLines (src : Text) : List Text :=
  match src with
  | [] => [[]]
  | c :: rest =>
    if c.toNat = 10 then [] :: splitLines rest
    else
      match splitLines rest with
      | [] => [[c]]
      | l :: ls => (c :: l) :: ls

/-- The tokens of a line, when `word` holds the characters of the current token, last first. -/
def tokensFrom (word : Text) (line : Text) : List Text :=
  match line with
  | [] => if word = [] then [] else [word.reverse]
  | c :: rest =>
    if isBlank c then
      if word = [] then tokensFrom [] rest else word.reverse :: tokensFrom [] rest
    else tokensFrom (c :: word) rest

/-- A line split on whitespace, empty tokens discarded (R104). -/
def tokens (line : Text) : List Text := tokensFrom [] line

/-! ### Names, immediates and labels -/

/-- The upper-case name of a mnemonic (R87, R104). -/
def mnemonicName : Mnemonic → Text
  | .ass => ['A', 'S', 'S']
  | .movf => ['M', 'O', 'V', 'F']
  | .movt => ['M', 'O', 'V', 'T']
  | .add => ['A', 'D', 'D']
  | .addi => ['A', 'D', 'D', 'I']
  | .sub => ['S', 'U', 'B']
  | .subi => ['S', 'U', 'B', 'I']
  | .not => ['N', 'O', 'T']
  | .and => ['A', 'N', 'D']
  | .or => ['O', 'R']
  | .gt => ['G', 'T']
  | .lt => ['L', 'T']
  | .ge => ['G', 'E']
  | .le => ['L', 'E']
  | .eq => ['E', 'Q']
  | .load => ['L', 'O', 'A', 'D']
  | .str => ['S', 'T', 'R']
  | .cfb => ['C', 'F', 'B']
  | .bez => ['B', 'E', 'Z']
  | .bnz => ['B', 'N', 'Z']
  | .b => ['B']
  | .lsl => ['L', 'S', 'L']
  | .lsr => ['L', 'S', 'R']
  | .lslr => ['L', 'S', 'L', 'R']
  | .lsrr => ['L', 'S', 'R', 'R']
  | .halt => ['H', 'A', 'L', 'T']
  | .gov => ['G', 'O', 'V']
  | .cov => ['C', 'O', 'V']

/-- The directive `DEBUG` (R107). -/
def debugName : Text := ['D', 'E', 'B', 'U', 'G']

/-- The mnemonic a token names (R108). -/
def mnemonicOf? (t : Text) : Option Mnemonic := Mnemonic.all.find? fun k => mnemonicName k == t

/-- The index of a register name, its position in the register-name list (R25, R109, D11). -/
def registerOf? (names : List Text) (t : Text) : Option RegIdx :=
  (names.idxOf? t).map fun k => BitVec.ofNat 4 k

/-- The value of a decimal digit, if the character is one (D23). -/
def digit? (c : Char) : Option Nat :=
  if 48 ≤ c.toNat ∧ c.toNat ≤ 57 then some (c.toNat - 48) else none

/-- The value of a digit string that continues a number `n`. -/
def numberFrom (n : Nat) (t : Text) : Option Nat :=
  match t with
  | [] => some n
  | c :: rest =>
    match digit? c with
    | none => none
    | some d => numberFrom (10 * n + d) rest

/-- The value of an immediate token: a non-empty string of decimal digits (R109, D23). -/
def number? (t : Text) : Option Nat := if t = [] then none else numberFrom 0 t

/-- The greatest immediate of a class-I mnemonic (R109). -/
def immediateBound (op : Mnemonic) : Nat := if op = .lsl ∨ op = .lsr then 7 else 15

/-- The name in a token of the form `[name]:`, where `name` is non-empty and holds no `[` or `]`
(R106, D21). -/
def labelName? (t : Text) : Option Text :=
  match t with
  | '[' :: rest =>
    match rest.reverse with
    | ':' :: ']' :: name =>
      if name ≠ [] ∧ ¬ '[' ∈ name ∧ ¬ ']' ∈ name then some name.reverse else none
    | _ => none
  | _ => none

/-! ### Reading lines (R105 to R111) -/

/-- A bound instruction (R108 to R110). A branch keeps its label until the image is built. -/
inductive Bound where
  | plain (i : Instr)
  | branch (op : Mnemonic) (a : RegIdx) (label : Text)
deriving DecidableEq, Repr

/-- What the loader has read so far: bound instructions, the Label Table in order of declaration and
the Debug Annotation Table. -/
structure Loaded where
  code : List Bound
  labels : List (Text × Nat)
  annotations : DebugTable
deriving DecidableEq, Repr

/-- Nothing read yet. -/
def Loaded.empty : Loaded where
  code := []
  labels := []
  annotations := []

/-- The class-N instruction of a mnemonic; `none` for a mnemonic of another class. -/
def instrNone (op : Mnemonic) : Option Instr :=
  match op with
  | .not => some .not
  | .cfb => some .cfb
  | .halt => some .halt
  | .gov => some .gov
  | .cov => some .cov
  | _ => none

/-- The class-I instruction of a mnemonic; `none` for a mnemonic of another class. -/
def instrImmediate (op : Mnemonic) (a : RegIdx) (imm : OpField) : Option Instr :=
  match op with
  | .ass => some (.ass a imm)
  | .addi => some (.addi a imm)
  | .subi => some (.subi a imm)
  | .lsl => some (.lsl a imm)
  | .lsr => some (.lsr a imm)
  | _ => none

/-- The class-R or class-M instruction of a mnemonic; `none` for a mnemonic of another class. -/
def instrRegister (op : Mnemonic) (a r : RegIdx) : Option Instr :=
  match op with
  | .movf => some (.movf a r)
  | .movt => some (.movt a r)
  | .add => some (.add a r)
  | .sub => some (.sub a r)
  | .and => some (.and a r)
  | .or => some (.or a r)
  | .gt => some (.gt a r)
  | .lt => some (.lt a r)
  | .ge => some (.ge a r)
  | .le => some (.le a r)
  | .eq => some (.eq a r)
  | .load => some (.load a r)
  | .str => some (.str a r)
  | .lslr => some (.lslr a r)
  | .lsrr => some (.lsrr a r)
  | _ => none

/-- The class-B instruction of a mnemonic; `none` for a mnemonic of another class. -/
def instrBranch (op : Mnemonic) (a : RegIdx) (rank : OpField) : Option Instr :=
  match op with
  | .bez => some (.bez a rank)
  | .bnz => some (.bnz a rank)
  | .b => some (.b a rank)
  | _ => none

/-- A built instruction, or the error of a mnemonic that names none of its class. -/
def boundPlain (i : Option Instr) : Except LoadError Bound :=
  match i with
  | none => .error .unknownOpcode
  | some i => .ok (.plain i)

/-- Bind the operands `Ra imm` (R108, R109). -/
def bindImmediate (names : List Text) (op : Mnemonic) (ta ti : Text) : Except LoadError Bound :=
  match registerOf? names ta with
  | none => .error .unknownRegister
  | some a =>
    match number? ti with
    | none => .error .malformedImmediate
    | some n =>
      if n ≤ immediateBound op then boundPlain (instrImmediate op a (BitVec.ofNat 4 n))
      else .error .immediateOutOfRange

/-- Bind the operands `Ra Rb` (R108, R109). -/
def bindRegister (names : List Text) (op : Mnemonic) (ta tr : Text) : Except LoadError Bound :=
  match registerOf? names ta with
  | none => .error .unknownRegister
  | some a =>
    match registerOf? names tr with
    | none => .error .unknownRegister
    | some r => boundPlain (instrRegister op a r)

/-- Bind the operands `Ra label`; the label stays a name (R108, R110). -/
def bindBranch (names : List Text) (op : Mnemonic) (ta label : Text) : Except LoadError Bound :=
  match registerOf? names ta with
  | none => .error .unknownRegister
  | some a => .ok (.branch op a label)

/-- Bind an instruction line's operands in the form its class fixes (R108). -/
def bindOperands (names : List Text) (op : Mnemonic) (operands : List Text) : Except LoadError Bound :=
  match op.operandClass, operands with
  | .none, [] => boundPlain (instrNone op)
  | .immediate, [ta, ti] => bindImmediate names op ta ti
  | .register, [ta, tr] => bindRegister names op ta tr
  | .memory, [ta, tr] => bindRegister names op ta tr
  | .branch, [ta, label] => bindBranch names op ta label
  | _, _ => .error .operandCount

/-- Read an instruction line: it appends one bound instruction (R108). -/
def readInstruction (names : List Text) (l : Loaded) (t : Text) (operands : List Text) :
    Except LoadError Loaded :=
  match mnemonicOf? t with
  | none => .error .unknownOpcode
  | some op =>
    match bindOperands names op operands with
    | .error e => .error e
    | .ok b => .ok { l with code := l.code ++ [b] }

/-- Read a label declaration: the name gets the address of the next instruction (R106). -/
def readLabel (l : Loaded) (t : Text) (others : List Text) : Except LoadError Loaded :=
  match labelName? t, others with
  | some name, [] =>
    if name ∈ l.labels.map Prod.fst then .error .duplicateLabel
    else .ok { l with labels := l.labels ++ [(name, l.code.length)] }
  | _, _ => .error .malformedLabel

/-- Read a `DEBUG` line: the text is attached to the last instruction read (R107). -/
def readDebug (l : Loaded) (operands : List Text) : Except LoadError Loaded :=
  match operands with
  | [text] =>
    if l.code = [] then .error .debugBeforeInstruction
    else .ok { l with annotations := l.annotations.attach (l.code.length - 1) text }
  | _ => .error .malformedDebug

/-- The token opens like a comment (R105). -/
def opensComment (t : Text) : Bool := decide (t.head? = some '#')

/-- Read one line of tokens (R105 to R108). After the first token, one that opens like a comment is an
extra operand on every kind of line (R105, D24). -/
def readLine (names : List Text) (l : Loaded) (line : List Text) : Except LoadError Loaded :=
  match line with
  | [] => .ok l
  | t :: rest =>
    if opensComment t then .ok l
    else if rest.any opensComment then .error .operandCount
    else if t.head? = some '[' then readLabel l t rest
    else if t = debugName then readDebug l rest
    else readInstruction names l t rest

/-- Read lines in file order, stopping at the first LoadError (R104, R111). -/
def readLines (names : List Text) (l : Loaded) (lines : List (List Text)) : Except LoadError Loaded :=
  match lines with
  | [] => .ok l
  | line :: rest =>
    match readLine names l line with
    | .error e => .error e
    | .ok l' => readLines names l' rest

/-! ### Building the image (R99 to R103, R112, R114) -/

/-- Lexicographic order by code point: `t` comes before `u` or equals it (R100, D9). -/
def textLe (t u : Text) : Bool :=
  match t, u with
  | [], _ => true
  | _ :: _, [] => false
  | c :: t', d :: u' =>
    if c.toNat < d.toNat then true else if d.toNat < c.toNat then false else textLe t' u'

/-- A label table entry inserted at its alphabetical place. -/
def insertLabel (p : Text × Nat) (sorted : List (Text × Nat)) : List (Text × Nat) :=
  match sorted with
  | [] => [p]
  | q :: rest => if textLe p.1 q.1 then p :: q :: rest else q :: insertLabel p rest

/-- The one label ordering that the encoder and the branch-target table share (R100, R101). -/
def sortLabels (labels : List (Text × Nat)) : List (Text × Nat) :=
  match labels with
  | [] => []
  | p :: rest => insertLabel p (sortLabels rest)

/-- The rank of a label: its position in the sorted list of all declared labels (R100). -/
def rankOf? (labels : List (Text × Nat)) (name : Text) : Option Nat :=
  ((sortLabels labels).map Prod.fst).idxOf? name

/-- `BTT`: the execution addresses in rank order, padded with 0 (R101). -/
def branchTable (labels : List (Text × Nat)) : Vector Byte 16 :=
  Vector.ofFn fun k =>
    match (sortLabels labels)[k.val]? with
    | none => 0
    | some p => BitVec.ofNat 8 p.2

/-- The instruction of a bound instruction, its label resolved to a rank (R99, R110). -/
def resolve (labels : List (Text × Nat)) (b : Bound) : Except LoadError Instr :=
  match b with
  | .plain i => .ok i
  | .branch op a name =>
    match rankOf? labels name with
    | none => .error .undeclaredLabel
    | some k =>
      match instrBranch op a (BitVec.ofNat 4 k) with
      | none => .error .unknownOpcode
      | some i => .ok i

/-- Every bound instruction resolved, in program order. -/
def resolveAll (labels : List (Text × Nat)) (code : List Bound) : Except LoadError (List Instr) :=
  match code with
  | [] => .ok []
  | b :: rest =>
    match resolve labels b with
    | .error e => .error e
    | .ok i =>
      match resolveAll labels rest with
      | .error e => .error e
      | .ok is => .ok (i :: is)

/-- A program image (R114). `L` is the length of `imem`. -/
structure Image where
  imem : List Entry
  btt : Vector Byte 16
  nlab : Nat
  dbg : DebugTable
deriving DecidableEq, Repr

/-- Build the image from what was read, or the limit or label that refuses it (R112, R114). -/
def buildImage (m : OpcodeMap) (l : Loaded) : Except LoadError Image :=
  if Config.maxProgram < l.code.length then .error .tooManyInstructions
  else if Config.maxLabels < l.labels.length then .error .tooManyLabels
  else if ∃ p ∈ l.labels, 255 < p.2 then .error .labelAddressTooLarge
  else
    match resolveAll l.labels l.code with
    | .error e => .error e
    | .ok is =>
      .ok { imem := is.map (encode m), btt := branchTable l.labels, nlab := l.labels.length,
            dbg := l.annotations }

/-- The image of the code points of a source text, or its LoadError (R104 to R114). -/
def assembleText (m : OpcodeMap) (names : List Text) (src : Text) : Except LoadError Image :=
  match readLines names .empty ((splitLines src).map tokens) with
  | .error e => .error e
  | .ok l => buildImage m l

/-- The loader and the encoder: the image of a UTF-8 source text, or its LoadError (R104 to R114). -/
def assemble (m : OpcodeMap) (names : List Text) (src : List Byte) : Except LoadError Image :=
  match utf8Decode src with
  | none => .error .notUtf8
  | some text => assembleText m names text

/-- The machine-code output: one nine-digit line per instruction, in program order, without `asel`
(R99, R102). -/
def machineCode (p : Image) : List Text := p.imem.map fun e => wordText e.word

/-- The lookup-table output, in the format the spec leaves open (R103, D28). -/
def lookupTableText (p : Image) : Text := Config.lutFormat p.btt

end Sys2Proof.Machine
end

