-- ==== Sys2Proof/Machine/Boot.lean ====
section
/-! DEFINITION. The reset sequence (R169): the driver's configuration (R170), the machine at its reset
values (R60 to R64) and the program image installed (R65). -/

namespace Sys2Proof.Machine

/-- What the external driver supplies (R170). -/
structure Driver where
  /-- The register-name list, the accumulator first. -/
  names : List Text
  /-- The initial memory contents, address and value. -/
  preload : List (Nat × Nat)
  /-- The first address of the report window. -/
  memMin : Nat
  /-- The last address of the report window. -/
  memMax : Nat
deriving DecidableEq, Repr

/-- Why a run does not start. Each is a refusal before any step. -/
inductive BootError where
  /-- The register-name list does not hold 1 to 16 distinct names (R170, D10, D11). -/
  | registerNames
  /-- A preload address or value is outside [0,255], or an address is named twice (R170, D25). -/
  | preload
  /-- The report window is not `0 <= MEM_MIN <= MEM_MAX <= 255` (R15, D25). -/
  | window
  /-- The source text has no program image (R158). -/
  | load (e : LoadError)
deriving DecidableEq, Repr

/-- The register-name list holds 1 to 16 distinct names (R170). -/
abbrev Driver.NamesOk (d : Driver) : Prop :=
  1 ≤ d.names.length ∧ d.names.length ≤ Config.maxRegisters ∧ d.names.Nodup

/-- The preload is a mapping from addresses in [0,255] to values in [0,255] (R170, D25). -/
abbrev Driver.PreloadOk (d : Driver) : Prop :=
  (d.preload.map Prod.fst).Nodup ∧ ∀ p ∈ d.preload, p.1 ≤ 255 ∧ p.2 ≤ 255

/-- The report window lies in memory (R15, D25). -/
abbrev Driver.WindowOk (d : Driver) : Prop := d.memMin ≤ d.memMax ∧ d.memMax ≤ 255

/-- The data memory with a preload applied to zeros (R63). -/
def preloaded (preload : List (Nat × Nat)) : Memory :=
  match preload with
  | [] => []
  | p :: rest => (preloaded rest).write (BitVec.ofNat 8 p.1) (BitVec.ofNat 8 p.2)

/-- The machine constructed at its reset values for a register count, a preload and a report window
(R60 to R64), with no image. -/
def construct (m : OpcodeMap) (d : Driver) : State :=
  { State.reset with
    regs := List.replicate d.names.length 0
    mem := preloaded d.preload
    opcodeMap := m
    memMin := BitVec.ofNat 8 d.memMin
    memMax := BitVec.ofNat 8 d.memMax }

/-- The image installed: `IMEM`, `BTT`, `NLAB`, `DBG` and with them `L` (R65, R169). -/
def State.install (s : State) (p : Image) : State :=
  { s with imem := p.imem, btt := p.btt, nlab := p.nlab, dbg := p.dbg }

/-- The state in which the first step of a run starts, or why there is no run (R158, R169, R170). -/
def boot (m : OpcodeMap) (d : Driver) (src : List Byte) : Except BootError State :=
  if ¬ d.NamesOk then .error .registerNames
  else if ¬ d.PreloadOk then .error .preload
  else if ¬ d.WindowOk then .error .window
  else
    match assemble m d.names src with
    | .error e => .error (.load e)
    | .ok p => .ok ((construct m d).install p)

end Sys2Proof.Machine
end

