-- ==== Sys2Proof/Machine/Run.lean ====
section
/-! DEFINITION. Runs and their report (R59, R84, R172, R177). -/

namespace Sys2Proof.Machine

/-- The state at the end of a run that ends within `fuel` steps; `none` where the fuel runs out, which
is no result of the run (R59, R177). -/
def run (fuel : Nat) (s : State) : Option State :=
  if s.status = .running then
    match fuel with
    | 0 => none
    | n + 1 =>
      match step s with
      | .next t => run n t
      | .fault _ => none
      | .refused _ => none
  else some s

/-- The memory cells from `lo` to `hi`, in address order (R84). -/
def window (m : Memory) (lo hi : Byte) : List Byte :=
  (List.range (hi.toNat + 1 - lo.toNat)).map fun k => m.byteAt (lo.toNat + k)

/-- What the block reports when a run ends (R172). -/
structure Report where
  outcome : Status
  memory : List Byte
  trace : List TraceEvent
deriving DecidableEq, Repr

/-- The report of a state, the same for a halt and a fault; none while the machine runs (R84, R172). -/
def report (s : State) : Option Report :=
  if s.status = .running then none
  else some ⟨s.status, window s.mem s.memMin s.memMax, s.trace⟩

/-- The trace lines, in the format the spec leaves open (R167, D27). -/
def traceLines (s : State) : List Text := s.trace.map fun e => Config.traceFormat e.pc e.acc e.text

end Sys2Proof.Machine
end

