-- ==== Sys2Proof/Safety.lean ====
section
/-! DEFINITION. The terms claims use: the invariant of every state, reachability, safe runs, and what
an instruction leaves unchanged. -/

namespace Sys2Proof.Machine

/-- The branch-target table holds 0 from index `NLAB` on (R37, R101). -/
abbrev State.PaddedTable (s : State) : Prop := ∀ k : Fin 16, s.nlab ≤ k.val → s.btt[k.val] = 0#8

/-- The parameters and the image are within the spec's limits: `1 <= NREG <= 16`, `L <= 256`,
`NLAB <= 16`, an admissible opcode map, `MEM_MIN <= MEM_MAX`, and tables in their form (R11 to R15,
R37, R38). -/
abbrev State.WithinLimits (s : State) : Prop :=
  (1 ≤ s.nreg ∧ s.nreg ≤ Config.maxRegisters) ∧
  s.imem.length ≤ Config.maxProgram ∧
  s.nlab ≤ Config.maxLabels ∧
  s.opcodeMap.Valid ∧
  s.memMin.toNat ≤ s.memMax.toNat ∧
  s.dbg.wf ∧
  s.PaddedTable

/-- What the status says of the pc: a run that halted stands on a HALT (R56), one that ran off the
program stands past it (R47), one that overflowed the pc stands at 255 (R55), one that could not decode
stands on an entry that does not decode (R157), and none ended at a memory index (R75). -/
def State.StatusExplained (s : State) : Prop :=
  match s.status with
  | .running => True
  | .halted => fetchDecode s = .ok .halt
  | .faulted .fetchOutOfRange => s.imem.length ≤ s.pc.toNat
  | .faulted .pcOverflow => s.pc = 255#8
  | .faulted .memoryIndexOutOfBounds => False
  | .faulted .illegalOpcode => fetchDecode s = .error .illegalOpcode
  | .faulted .reservedOperandField => fetchDecode s = .error .reservedOperandField
  | .faulted .subtractionUnderflow =>
    ∃ i, fetchDecode s = .ok i ∧ (i.mnemonic = .sub ∨ i.mnemonic = .subi)
  | .faulted .shiftOutOfRange =>
    fetchDecode s = .error .shiftOutOfRange ∨
      ∃ i, fetchDecode s = .ok i ∧ (i.mnemonic = .lslr ∨ i.mnemonic = .lsrr)
  | .faulted .registerIndexOutOfBounds =>
    ∃ i, fetchDecode s = .ok i ∧ ¬ i.FitsRegisters s.nreg

/-- The invariant of every state a run passes through. -/
def State.Inv (s : State) : Prop := s.WithinLimits ∧ s.mem.wf ∧ s.StatusExplained

/-- `t` is reached from `s` in some number of steps. -/
inductive Reaches : State → State → Prop where
  | refl (s : State) : Reaches s s
  | step {s t u : State} (first : Machine.step s = .next t) (rest : Reaches t u) : Reaches s u

/-- The run has faulted for this reason. -/
abbrev State.FaultedFor (s : State) (r : FaultReason) : Prop := s.status = .faulted r

/-- Every entry of the instruction store decodes, to an instruction whose registers exist: what the
loader builds (R99, R109, R114). -/
def LegalImage (s : State) : Prop :=
  ∀ e ∈ s.imem, ∃ i : Instr, decode s.opcodeMap e = .ok i ∧ i.FitsRegisters s.nreg

/-- The state has none of the four faults the loader rules out (R153 to R156). -/
def NoLoaderFault (s : State) : Prop :=
  ¬ s.FaultedFor .illegalOpcode ∧ ¬ s.FaultedFor .reservedOperandField ∧
    ¬ s.FaultedFor .registerIndexOutOfBounds ∧ ¬ s.FaultedFor .memoryIndexOutOfBounds

/-- No run from `s` ends in a fault the loader rules out: every fetched entry decodes, and every
register it names exists (R153 to R156). -/
def SafeImage (s : State) : Prop := ∀ t, Reaches s t → NoLoaderFault t

/-- Nothing an instruction cannot change has changed: the image and the parameters (R36, R37, R65). -/
structure SameProgram (s t : State) : Prop where
  imem : t.imem = s.imem
  btt : t.btt = s.btt
  nlab : t.nlab = s.nlab
  dbg : t.dbg = s.dbg
  opcodeMap : t.opcodeMap = s.opcodeMap
  memMin : t.memMin = s.memMin
  memMax : t.memMax = s.memMax
  nreg : t.nreg = s.nreg

/-- Every byte of memory reads as before. -/
def SameMemory (s t : State) : Prop := ∀ addr : Byte, t.mem.read addr = s.mem.read addr

/-- Every byte of memory but the one at `addr` reads as before. -/
def SameMemoryExcept (addr : Byte) (s t : State) : Prop :=
  ∀ b : Byte, b ≠ addr → t.mem.read b = s.mem.read b

/-- Every register reads as before. -/
def SameRegisters (s t : State) : Prop := ∀ j : RegIdx, t.reg? j = s.reg? j

/-- Every register but `d` reads as before. -/
def SameRegistersExcept (d : RegIdx) (s t : State) : Prop := ∀ j : RegIdx, j ≠ d → t.reg? j = s.reg? j

/-- The step went on to `t` and appended to the trace exactly the event of the new pc, if it is
annotated (R41, R57). -/
def Traced (s t : State) : Prop := t.trace = s.trace ++ t.traceEvents

/-- The instruction completed and the pc went on by exactly 1 (R31): the status is as before and the
trace has the event of the new pc. -/
structure WentOn (s t : State) : Prop where
  status : t.status = s.status
  pc : t.pc.toNat = s.pc.toNat + 1
  traced : Traced s t

/-- The instruction completed and the pc went to `target` (R31, R138). -/
structure WentTo (target : Byte) (s t : State) : Prop where
  status : t.status = s.status
  pc : t.pc = target
  traced : Traced s t

/-- The instruction completes with `v` in register `d` and the flag at `ovf`: the pc goes on by 1, and
every other register, every byte of memory, the image and the parameters are as before. -/
def CompletesWith (i : Instr) (s : State) (d : RegIdx) (v : Byte) (ovf : Bool) : Prop :=
  ∃ t, exec i s = .next t ∧ WentOn s t ∧ SameProgram s t ∧ SameMemory s t ∧
    SameRegistersExcept d s t ∧ t.reg? d = some v ∧ t.ovf = ovf

/-- The instruction completes at `target` and changes nothing else: every register, every byte of
memory, the flag, the image and the parameters are as before. -/
def JumpsTo (i : Instr) (s : State) (target : Byte) : Prop :=
  ∃ t, exec i s = .next t ∧ WentTo target s t ∧ SameProgram s t ∧ SameMemory s t ∧
    SameRegisters s t ∧ t.ovf = s.ovf

/-- The instruction writes `v` to register `d`, then takes the pc overflow: the flag, the pc and the trace
stay, and every other register, every byte of memory, the image and the parameters are as before
(R54, R150). -/
def WritesThenOverflows (i : Instr) (s : State) (d : RegIdx) (v : Byte) : Prop :=
  ∃ t, exec i s = .next t ∧ t.status = .faulted .pcOverflow ∧ t.reg? d = some v ∧ t.ovf = s.ovf ∧
    t.pc = s.pc ∧ t.trace = s.trace ∧ SameRegistersExcept d s t ∧ SameMemory s t ∧ SameProgram s t

/-- The instruction takes the fault `r` and writes nothing but the status (R55, R157). -/
def Traps (i : Instr) (s : State) (r : FaultReason) : Prop := exec i s = .next (s.raiseFault r)

/-- Under the default opcode map the instruction is the entry with `asel = a` and the word `opc ++ f`, the
form of the rules' Encoding lines (R85, R86, R89). -/
def EncodesAs (i : Instr) (a : RegIdx) (opc : Opcode) (f : OpField) : Prop :=
  encode .default i = ⟨a, opc ++ f⟩

/-- Under the default opcode map an entry with this opcode is rejected as reserved unless its field and
its `asel` are 0 (R92). -/
def ReservedUnlessZero (opc : Opcode) : Prop :=
  ∀ e : Entry, opcodeField e.word = opc → ¬ (fieldOf e.word = 0#4 ∧ e.asel = 0#4) →
    decode .default e = .error .reservedOperandField

/-- Under the default opcode map an entry with this opcode is rejected where its field is above 7
(R93). -/
def ShiftFieldBounded (opc : Opcode) : Prop :=
  ∀ e : Entry, opcodeField e.word = opc → 7 < (fieldOf e.word).toNat →
    decode .default e = .error .shiftOutOfRange

/-- The UTF-8 bytes of a text, by the core library's encoding of one code point (R104). -/
def utf8Encode (text : Text) : List Byte :=
  text.flatMap fun c => (String.utf8EncodeChar c).map UInt8.toBitVec

/-- The states differ in what the trace is made of only: the trace itself and the annotations. -/
def SameButDebug (s t : State) : Prop := t = { s with trace := t.trace, dbg := t.dbg }

end Sys2Proof.Machine
end

