-- ==== Sys2Proof/Certificates/Slice0/Obligations.lean ====
section
/-! DEFINITION. The statements for the provers. Each docstring names the rule of spec/ it formalises. -/

open Sys2Proof Sys2Proof.Machine

/-! ### Encoding -/

/-- Under every admissible opcode map, the decoder gives a well-formed instruction back from its
encoding (R91, R99). -/
def Obligations.DecodeEncodeAgree : Prop :=
  ∀ (m : OpcodeMap) (i : Instr), m.Valid → i.WellFormed → decode m (encode m i) = .ok i

/-- What decodes is well-formed and encodes to the entry it came from: no bit of an entry is dropped
(R91, R92, R93, R99). -/
def Obligations.EncodeDecodeAgree : Prop :=
  ∀ (m : OpcodeMap) (e : Entry) (i : Instr), decode m e = .ok i → i.WellFormed ∧ encode m i = e

/-- Under every admissible opcode map, the illegal opcode values are 0, 29, 30 and 31. That they
fault is the spec's own decision D6 (R90). -/
def Obligations.IllegalOpcodesAreFour : Prop :=
  ∀ (m : OpcodeMap) (e : Entry), m.Valid →
    (decode m e = .error .illegalOpcode ↔ opcodeField e.word ∈ ([0, 29, 30, 31] : List Opcode))

/-- A class-N entry with a nonzero field or `asel` is rejected as reserved, and no other entry is;
the encoder makes none. The rejection is the spec's own decision D7 (R92). -/
def Obligations.ReservedFieldIsClassN : Prop :=
  ∀ (m : OpcodeMap) (e : Entry), m.Valid →
    (decode m e = .error .reservedOperandField ↔
      ∃ k : Mnemonic, k.operandClass = .none ∧ opcodeField e.word = m.code k ∧
        ¬ (fieldOf e.word = 0#4 ∧ e.asel = 0#4)) ∧
    ∀ i : Instr, decode m (encode m i) ≠ .error .reservedOperandField

/-- An LSL or LSR entry with a field above 7 is rejected as a shift out of range, and no other entry is.
That the decoder rejects it is the spec's own decision D8 (R93). -/
def Obligations.DecoderRejectsLargeShifts : Prop :=
  ∀ (m : OpcodeMap) (e : Entry), m.Valid →
    (decode m e = .error .shiftOutOfRange ↔
      (opcodeField e.word = m.code .lsl ∨ opcodeField e.word = m.code .lsr) ∧
        7 < (fieldOf e.word).toNat)

/-- Of the 512 bare words, 357 are legal, 64 illegal, 75 reserved and 16 shifts out of range, under the
default map with 16 registers. The counts rest on the spec's decisions D5 to D8 (R98). -/
def Obligations.BareWordCounts : Prop :=
  let results := (List.range 512).map fun w => decode .default (bareEntry (BitVec.ofNat 9 w))
  results.countP (fun r => r matches .ok _) = 357 ∧
  results.countP (fun r => r matches .error .illegalOpcode) = 64 ∧
  results.countP (fun r => r matches .error .reservedOperandField) = 75 ∧
  results.countP (fun r => r matches .error .shiftOutOfRange) = 16

/-- Words written out from the spec's encodings decode to the instructions they stand for, one or more
of each family (R115, R118, R123, R132, R135, R140, R143); the opcode values are the spec's decision D5. -/
def Obligations.SampleWordsDecode : Prop :=
  decode .default ⟨1, 0b000010101⟩ = .ok (.ass 1 5) ∧
  decode .default ⟨0, 0b001000010⟩ = .ok (.add 0 2) ∧
  decode .default ⟨0, 0b010000000⟩ = .ok .not ∧
  decode .default ⟨2, 0b100000001⟩ = .ok (.load 2 1) ∧
  decode .default ⟨0, 0b100110010⟩ = .ok (.bez 0 2) ∧
  decode .default ⟨0, 0b101110111⟩ = .ok (.lsr 0 7) ∧
  decode .default ⟨0, 0b110100000⟩ = .ok .halt

/-- The default opcode map is admissible and numbers the mnemonics 1 to 28 in the order of its table.
The map is the spec's own decision D5 (R89). -/
def Obligations.DefaultMapNumbering : Prop :=
  OpcodeMap.default.Valid ∧
    ∀ k : Fin 28, (OpcodeMap.default.code (Mnemonic.all[k.val]'k.isLt)).toNat = k.val + 1

/-- The textual form of a word is nine digits, the first of them bit 8. The digit order is the spec's
own decision D4 (R17, R102). -/
def Obligations.WordTextIsMsbFirst : Prop :=
  ∀ w : InstrWord, (wordText w).length = 9 ∧
    ∀ k : Nat, k < 9 → (wordText w)[k]? = some (if w.getLsbD (8 - k) then '1' else '0')

/-! ### The step -/

/-- A running machine whose entry at the pc decodes to an instruction executes that instruction (R53). -/
def Obligations.StepRunsDecodedInstruction : Prop :=
  ∀ (s : State) (e : Entry) (i : Instr), s.status = .running → s.imem[s.pc.toNat]? = some e →
    decode s.opcodeMap e = .ok i → step s = exec i s

/-- A running machine takes the fetch fault exactly where its pc is at or past the program's end, whatever
the rest of its state, and writes nothing else (R47, R149). -/
def Obligations.FetchPastEndFaults : Prop :=
  ∀ s : State, s.status = .running →
    (s.imem.length ≤ s.pc.toNat → step s = .next (s.raiseFault .fetchOutOfRange)) ∧
    (s.pc.toNat < s.imem.length → ∀ t, step s = .next t → t.status ≠ .faulted .fetchOutOfRange)

/-- A running machine whose entry does not decode takes the decoder's fault, before any index check.
The rejections, the order and the unchanged state are the spec's own decisions D6 to D8, D14 and D15
(R91, R157, R160). -/
def Obligations.UndecodableEntryFaults : Prop :=
  ∀ (s : State) (e : Entry), s.status = .running → s.imem[s.pc.toNat]? = some e →
    (decode s.opcodeMap e = .error .illegalOpcode →
      step s = .next (s.raiseFault .illegalOpcode)) ∧
    (decode s.opcodeMap e = .error .reservedOperandField →
      step s = .next (s.raiseFault .reservedOperandField)) ∧
    (decode s.opcodeMap e = .error .shiftOutOfRange →
      step s = .next (s.raiseFault .shiftOutOfRange))

/-- A halted or faulted machine has no step (R52), and a running one always has a next state. -/
def Obligations.StepExactlyWhenRunning : Prop :=
  ∀ s : State, (s.status ≠ .running → step s = .fault .runEnded) ∧
    (s.status = .running → ∃ t, step s = .next t)

/-- Every instruction that names a register index at or above NREG takes the index fault, whatever its
operands, and writes nothing (R153; the place of the check and the unchanged state are the spec's own
decisions D14 and D15). -/
def Obligations.BadRegisterIndexTraps : Prop :=
  ∀ (i : Instr) (s : State), ¬ i.FitsRegisters s.nreg → Traps i s .registerIndexOutOfBounds

/-! ### Data movement

Each statement of an instruction's rule says its encoding, its effect with its frame, and every fault
its rule names. The rules state all of that as their own; the opcode values in them are those of the
default map (D5), and the place of the checks and the unchanged state of a faulting instruction follow
60_exceptions.md (R157, R160). At pc 255 `PcOverflowAfterWrites` says the rest. -/

/-- ASS writes its immediate (R115). -/
def Obligations.AssWritesImmediate : Prop :=
  ∀ (s : State) (a : RegIdx) (imm : OpField),
    EncodesAs (.ass a imm) a 0b00001#5 imm ∧
    (a.toNat < s.nreg → s.pc ≠ 255#8 →
      CompletesWith (.ass a imm) s a (BitVec.ofNat 8 imm.toNat) s.ovf) ∧
    (¬ a.toNat < s.nreg → Traps (.ass a imm) s .registerIndexOutOfBounds)

/-- MOVF copies its second register into its first (R116). -/
def Obligations.MovfCopiesToFirst : Prop :=
  ∀ (s : State) (a r : RegIdx),
    EncodesAs (.movf a r) a 0b00010#5 r ∧
    (∀ q : Byte, a.toNat < s.nreg → s.reg? r = some q → s.pc ≠ 255#8 →
      CompletesWith (.movf a r) s a q s.ovf) ∧
    (¬ (a.toNat < s.nreg ∧ r.toNat < s.nreg) → Traps (.movf a r) s .registerIndexOutOfBounds)

/-- MOVT copies its first register into its second (R117). -/
def Obligations.MovtCopiesToSecond : Prop :=
  ∀ (s : State) (a r : RegIdx),
    EncodesAs (.movt a r) a 0b00011#5 r ∧
    (∀ p : Byte, s.reg? a = some p → r.toNat < s.nreg → s.pc ≠ 255#8 →
      CompletesWith (.movt a r) s r p s.ovf) ∧
    (¬ (a.toNat < s.nreg ∧ r.toNat < s.nreg) → Traps (.movt a r) s .registerIndexOutOfBounds)

/-! ### Arithmetic -/

/-- ADD writes the sum modulo 256, and the flag ends set exactly if it was set or the sum is 256 or more.
At pc 255 the sum is written and the flag is not set, because the increment faults first (R118). -/
def Obligations.AddWrapsAndSignals : Prop :=
  ∀ (s : State) (a r : RegIdx),
    EncodesAs (.add a r) a 0b00100#5 r ∧
    (∀ p q : Byte, s.reg? a = some p → s.reg? r = some q → s.pc ≠ 255#8 →
      CompletesWith (.add a r) s a (BitVec.ofNat 8 ((p.toNat + q.toNat) % 256))
        (s.ovf || decide (256 ≤ p.toNat + q.toNat))) ∧
    (∀ p q : Byte, s.reg? a = some p → s.reg? r = some q → s.pc = 255#8 →
      WritesThenOverflows (.add a r) s a (BitVec.ofNat 8 ((p.toNat + q.toNat) % 256))) ∧
    (¬ (a.toNat < s.nreg ∧ r.toNat < s.nreg) → Traps (.add a r) s .registerIndexOutOfBounds)

/-- ADDI likewise, with its immediate (R119). -/
def Obligations.AddiWrapsAndSignals : Prop :=
  ∀ (s : State) (a : RegIdx) (imm : OpField),
    EncodesAs (.addi a imm) a 0b00101#5 imm ∧
    (∀ p : Byte, s.reg? a = some p → s.pc ≠ 255#8 →
      CompletesWith (.addi a imm) s a (BitVec.ofNat 8 ((p.toNat + imm.toNat) % 256))
        (s.ovf || decide (256 ≤ p.toNat + imm.toNat))) ∧
    (∀ p : Byte, s.reg? a = some p → s.pc = 255#8 →
      WritesThenOverflows (.addi a imm) s a (BitVec.ofNat 8 ((p.toNat + imm.toNat) % 256))) ∧
    (¬ a.toNat < s.nreg → Traps (.addi a imm) s .registerIndexOutOfBounds)

/-- SUB writes the exact difference where the minuend is not below the subtrahend, and otherwise takes
the underflow fault with nothing written, at every pc (R120). -/
def Obligations.SubExactOrUnderflow : Prop :=
  ∀ (s : State) (a r : RegIdx),
    EncodesAs (.sub a r) a 0b00110#5 r ∧
    (∀ p q : Byte, s.reg? a = some p → s.reg? r = some q →
      (q.toNat ≤ p.toNat → s.pc ≠ 255#8 →
        CompletesWith (.sub a r) s a (BitVec.ofNat 8 (p.toNat - q.toNat)) s.ovf) ∧
      (p.toNat < q.toNat → Traps (.sub a r) s .subtractionUnderflow)) ∧
    (¬ (a.toNat < s.nreg ∧ r.toNat < s.nreg) → Traps (.sub a r) s .registerIndexOutOfBounds)

/-- SUBI likewise, with its immediate (R121). -/
def Obligations.SubiExactOrUnderflow : Prop :=
  ∀ (s : State) (a : RegIdx) (imm : OpField),
    EncodesAs (.subi a imm) a 0b00111#5 imm ∧
    (∀ p : Byte, s.reg? a = some p →
      (imm.toNat ≤ p.toNat → s.pc ≠ 255#8 →
        CompletesWith (.subi a imm) s a (BitVec.ofNat 8 (p.toNat - imm.toNat)) s.ovf) ∧
      (p.toNat < imm.toNat → Traps (.subi a imm) s .subtractionUnderflow)) ∧
    (¬ a.toNat < s.nreg → Traps (.subi a imm) s .registerIndexOutOfBounds)

/-! ### Logic, comparison, bit extraction -/

/-- NOT writes 255 minus the accumulator (R123). -/
def Obligations.NotComplementsAccumulator : Prop :=
  EncodesAs .not 0#4 0b01000#5 0#4 ∧ ReservedUnlessZero 0b01000#5 ∧
  ∀ (s : State) (p : Byte), s.reg? 0#4 = some p → s.pc ≠ 255#8 →
    CompletesWith .not s 0#4 (BitVec.ofNat 8 (255 - p.toNat)) s.ovf

/-- NOT twice gives every register its value back (R123's corner case). -/
def Obligations.NotTwiceRestores : Prop :=
  ∀ (s t u : State), s.status = .running → exec .not s = .next t → t.status = .running →
    exec .not t = .next u → SameRegisters s u

/-- AND writes the bitwise and, bit by bit (R124). -/
def Obligations.AndIsBitwise : Prop :=
  ∀ (s : State) (a r : RegIdx),
    EncodesAs (.and a r) a 0b01001#5 r ∧
    (∀ p q : Byte, s.reg? a = some p → s.reg? r = some q → s.pc ≠ 255#8 →
      ∃ v, CompletesWith (.and a r) s a v s.ovf ∧
        ∀ k : Nat, k < 8 → v.getLsbD k = (p.getLsbD k && q.getLsbD k)) ∧
    (¬ (a.toNat < s.nreg ∧ r.toNat < s.nreg) → Traps (.and a r) s .registerIndexOutOfBounds)

/-- OR writes the bitwise or, bit by bit (R125). -/
def Obligations.OrIsBitwise : Prop :=
  ∀ (s : State) (a r : RegIdx),
    EncodesAs (.or a r) a 0b01010#5 r ∧
    (∀ p q : Byte, s.reg? a = some p → s.reg? r = some q → s.pc ≠ 255#8 →
      ∃ v, CompletesWith (.or a r) s a v s.ovf ∧
        ∀ k : Nat, k < 8 → v.getLsbD k = (p.getLsbD k || q.getLsbD k)) ∧
    (¬ (a.toNat < s.nreg ∧ r.toNat < s.nreg) → Traps (.or a r) s .registerIndexOutOfBounds)

/-- The five comparisons write 1 where the unsigned comparison holds and 0 where it does not
(R126 to R130). -/
def Obligations.ComparisonsWriteOneOrZero : Prop :=
  ∀ (s : State) (a r : RegIdx),
    (EncodesAs (.gt a r) a 0b01011#5 r ∧ EncodesAs (.lt a r) a 0b01100#5 r ∧
      EncodesAs (.ge a r) a 0b01101#5 r ∧ EncodesAs (.le a r) a 0b01110#5 r ∧
      EncodesAs (.eq a r) a 0b01111#5 r) ∧
    (∀ p q : Byte, s.reg? a = some p → s.reg? r = some q → s.pc ≠ 255#8 →
      CompletesWith (.gt a r) s a (if p.toNat > q.toNat then 1#8 else 0#8) s.ovf ∧
      CompletesWith (.lt a r) s a (if p.toNat < q.toNat then 1#8 else 0#8) s.ovf ∧
      CompletesWith (.ge a r) s a (if p.toNat ≥ q.toNat then 1#8 else 0#8) s.ovf ∧
      CompletesWith (.le a r) s a (if p.toNat ≤ q.toNat then 1#8 else 0#8) s.ovf ∧
      CompletesWith (.eq a r) s a (if p = q then 1#8 else 0#8) s.ovf) ∧
    (¬ (a.toNat < s.nreg ∧ r.toNat < s.nreg) →
      Traps (.gt a r) s .registerIndexOutOfBounds ∧ Traps (.lt a r) s .registerIndexOutOfBounds ∧
      Traps (.ge a r) s .registerIndexOutOfBounds ∧ Traps (.le a r) s .registerIndexOutOfBounds ∧
      Traps (.eq a r) s .registerIndexOutOfBounds)

/-- CFB writes 1 where bit 7 of the accumulator is set and 0 where it is clear (R131). -/
def Obligations.CfbCopiesBitSeven : Prop :=
  EncodesAs .cfb 0#4 0b10010#5 0#4 ∧ ReservedUnlessZero 0b10010#5 ∧
  ∀ (s : State) (p : Byte), s.reg? 0#4 = some p → s.pc ≠ 255#8 →
    CompletesWith .cfb s 0#4 (if p.getLsbD 7 then 1#8 else 0#8) s.ovf

/-! ### Loads and stores -/

/-- LOAD writes the byte at the address held by its second register (R132). -/
def Obligations.LoadReadsMemory : Prop :=
  ∀ (s : State) (a r : RegIdx),
    EncodesAs (.load a r) a 0b10000#5 r ∧
    (∀ addr : Byte, a.toNat < s.nreg → s.reg? r = some addr → s.pc ≠ 255#8 →
      CompletesWith (.load a r) s a (s.mem.read addr) s.ovf) ∧
    (¬ (a.toNat < s.nreg ∧ r.toNat < s.nreg) → Traps (.load a r) s .registerIndexOutOfBounds)

/-- STR stores its first register at the address its second register holds; every other byte, every
register and the flag stay (R133). -/
def Obligations.StoreWritesOneByte : Prop :=
  ∀ (s : State) (a r : RegIdx),
    EncodesAs (.str a r) a 0b10001#5 r ∧
    (∀ v addr : Byte, s.reg? a = some v → s.reg? r = some addr → s.mem.wf → s.pc ≠ 255#8 →
      ∃ t, exec (.str a r) s = .next t ∧ WentOn s t ∧ SameProgram s t ∧ SameRegisters s t ∧
        t.ovf = s.ovf ∧ effectiveAddress s r = addr ∧ t.mem.read (effectiveAddress s r) = v ∧
        SameMemoryExcept (effectiveAddress s r) s t) ∧
    (¬ (a.toNat < s.nreg ∧ r.toNat < s.nreg) → Traps (.str a r) s .registerIndexOutOfBounds)

/-- A LOAD that directly follows a STR, through a register with the same address, loads the byte stored
(a case of R79). -/
def Obligations.LoadReturnsLastStore : Prop :=
  ∀ (s t : State) (a r d q : RegIdx) (v : Byte), s.mem.wf → s.reg? a = some v → s.status = .running →
    exec (.str a r) s = .next t → t.status = .running → t.pc ≠ 255#8 → d.toNat < s.nreg →
    s.reg? q = s.reg? r → CompletesWith (.load d q) t d v t.ovf

/-! ### Control transfer -/

/-- BEZ goes to the table's entry where the tested register is 0; otherwise it goes on by 1, or takes
the pc overflow at 255 (R135). -/
def Obligations.BezBranchesOnZero : Prop :=
  ∀ (s : State) (a : RegIdx) (rank : OpField),
    EncodesAs (.bez a rank) a 0b10011#5 rank ∧
    (∀ p : Byte, s.reg? a = some p →
      (p = 0#8 → JumpsTo (.bez a rank) s s.btt[rank.toNat]) ∧
      (p ≠ 0#8 → s.pc ≠ 255#8 → JumpsTo (.bez a rank) s (BitVec.ofNat 8 (s.pc.toNat + 1))) ∧
      (p ≠ 0#8 → s.pc = 255#8 → Traps (.bez a rank) s .pcOverflow)) ∧
    (¬ a.toNat < s.nreg → Traps (.bez a rank) s .registerIndexOutOfBounds)

/-- BNZ with the condition reversed (R136). -/
def Obligations.BnzBranchesOnNonzero : Prop :=
  ∀ (s : State) (a : RegIdx) (rank : OpField),
    EncodesAs (.bnz a rank) a 0b10100#5 rank ∧
    (∀ p : Byte, s.reg? a = some p →
      (p ≠ 0#8 → JumpsTo (.bnz a rank) s s.btt[rank.toNat]) ∧
      (p = 0#8 → s.pc ≠ 255#8 → JumpsTo (.bnz a rank) s (BitVec.ofNat 8 (s.pc.toNat + 1))) ∧
      (p = 0#8 → s.pc = 255#8 → Traps (.bnz a rank) s .pcOverflow)) ∧
    (¬ a.toNat < s.nreg → Traps (.bnz a rank) s .registerIndexOutOfBounds)

/-- B goes to the table's entry in every state, whatever register it names. That it checks no register
is the spec's decision D29 in R137. -/
def Obligations.BJumpsAlways : Prop :=
  ∀ (s : State) (a : RegIdx) (rank : OpField),
    EncodesAs (.b a rank) a 0b10101#5 rank ∧ JumpsTo (.b a rank) s s.btt[rank.toNat]

/-! ### Shifts -/

/-- LSL and LSR shift by their immediate: the product by a power of two modulo 256, and the quotient;
a field above 7 does not decode (R139, R140). -/
def Obligations.ImmediateShifts : Prop :=
  ShiftFieldBounded 0b10110#5 ∧ ShiftFieldBounded 0b10111#5 ∧
  ∀ (s : State) (a : RegIdx) (imm : OpField),
    (EncodesAs (.lsl a imm) a 0b10110#5 imm ∧ EncodesAs (.lsr a imm) a 0b10111#5 imm) ∧
    (∀ p : Byte, s.reg? a = some p → imm.toNat ≤ 7 → s.pc ≠ 255#8 →
      CompletesWith (.lsl a imm) s a (BitVec.ofNat 8 (p.toNat * 2 ^ imm.toNat % 256)) s.ovf ∧
      CompletesWith (.lsr a imm) s a (BitVec.ofNat 8 (p.toNat / 2 ^ imm.toNat)) s.ovf) ∧
    (¬ a.toNat < s.nreg →
      Traps (.lsl a imm) s .registerIndexOutOfBounds ∧
      Traps (.lsr a imm) s .registerIndexOutOfBounds)

/-- LSLR and LSRR shift by a register's value in [0,7], and otherwise take the shift fault with nothing
written (R141, R142). -/
def Obligations.RegisterShifts : Prop :=
  ∀ (s : State) (a r : RegIdx),
    (EncodesAs (.lslr a r) a 0b11000#5 r ∧ EncodesAs (.lsrr a r) a 0b11001#5 r) ∧
    (∀ p n : Byte, s.reg? a = some p → s.reg? r = some n →
      (n.toNat ≤ 7 → s.pc ≠ 255#8 →
        CompletesWith (.lslr a r) s a (BitVec.ofNat 8 (p.toNat * 2 ^ n.toNat % 256)) s.ovf ∧
        CompletesWith (.lsrr a r) s a (BitVec.ofNat 8 (p.toNat / 2 ^ n.toNat)) s.ovf) ∧
      (7 < n.toNat →
        Traps (.lslr a r) s .shiftOutOfRange ∧ Traps (.lsrr a r) s .shiftOutOfRange)) ∧
    (¬ (a.toNat < s.nreg ∧ r.toNat < s.nreg) →
      Traps (.lslr a r) s .registerIndexOutOfBounds ∧ Traps (.lsrr a r) s .registerIndexOutOfBounds)

/-! ### System -/

/-- HALT ends the run in every state, changes nothing but the status, and the memory window is reported
(R143). -/
def Obligations.HaltEndsTheRun : Prop :=
  EncodesAs .halt 0#4 0b11010#5 0#4 ∧ ReservedUnlessZero 0b11010#5 ∧
  ∀ s : State, ∃ t, exec .halt s = .next t ∧ t = { s with status := .halted } ∧
    step t = .fault .runEnded ∧
    report t = some ⟨.halted, window s.mem s.memMin s.memMax, s.trace⟩

/-- GOV writes 1 or 0, the flag's value, to the accumulator and keeps the flag (R144). -/
def Obligations.GovCopiesFlag : Prop :=
  EncodesAs .gov 0#4 0b11011#5 0#4 ∧ ReservedUnlessZero 0b11011#5 ∧
  ∀ s : State, 1 ≤ s.nreg → s.pc ≠ 255#8 →
    CompletesWith .gov s 0#4 (if s.ovf then 1#8 else 0#8) s.ovf

/-- COV clears the flag and changes no register and no memory, and no step of another instruction clears
it (R145). -/
def Obligations.CovClearsFlag : Prop :=
  EncodesAs .cov 0#4 0b11100#5 0#4 ∧ ReservedUnlessZero 0b11100#5 ∧
  (∀ s : State, s.pc ≠ 255#8 →
    ∃ t, exec .cov s = .next t ∧ WentOn s t ∧ SameProgram s t ∧ SameMemory s t ∧
      SameRegisters s t ∧ t.ovf = false) ∧
  ∀ s t : State, step s = .next t → s.ovf = true → t.ovf = false → fetchDecode s = .ok .cov

/-! ### Whole-machine rules -/

/-- At pc 255 an instruction that is no branch and no HALT makes the writes it makes at pc 0, then takes
the pc overflow: the pc stays 255, no trace event is appended and the flag is not set (R150). -/
def Obligations.PcOverflowAfterWrites : Prop :=
  ∀ (i : Instr) (s u : State), s.status = .running → s.pc = 255#8 →
    i.mnemonic.operandClass ≠ .branch → exec i (s.setPc 0#8) = .next u → u.status = .running →
    ∃ t, exec i s = .next t ∧ t.status = .faulted .pcOverflow ∧ t.pc = 255#8 ∧
      t.regs = u.regs ∧ t.mem = u.mem ∧ t.trace = s.trace ∧
      t.ovf = (if i = .cov then false else s.ovf) ∧ SameProgram s t

/-- A step that takes a fault other than the pc overflow changes nothing but the status. This is
the spec's own decision D15, D26 (R55, R157). -/
def Obligations.FaultWritesNothing : Prop :=
  ∀ (s t : State) (r : FaultReason), step s = .next t → t.status = .faulted r → r ≠ .pcOverflow →
    t = { s with status := .faulted r }

/-- A step that goes on moves the pc by exactly 1, unless its instruction is a branch, which may move it
to its entry of the table; a step that takes the pc overflow was at 255 and stays there. So the pc never
wraps (R31). -/
def Obligations.PcMovesByOneOrToTable : Prop :=
  ∀ s t : State, step s = .next t →
    (t.status = .running →
      t.pc.toNat = s.pc.toNat + 1 ∨
      ∃ (i : Instr), fetchDecode s = .ok i ∧ i.mnemonic.operandClass = .branch ∧
        t.pc = s.btt[i.operandField.toNat]) ∧
    (t.status = .faulted .pcOverflow → s.pc = 255#8 ∧ t.pc = 255#8)

/-- No step changes the program image, the parameters or the register count (R36, R37, R65). -/
def Obligations.ProgramIsReadOnly : Prop :=
  ∀ s t : State, step s = .next t → SameProgram s t

/-- Only a STR changes a byte of memory (R68). -/
def Obligations.OnlyStoreChangesMemory : Prop :=
  ∀ s t : State, step s = .next t → (∀ a r : RegIdx, fetchDecode s ≠ .ok (.str a r)) →
    SameMemory s t

/-- The flag, once set, stays set until a COV, and only ADD and ADDI set it (R33, R34). -/
def Obligations.OverflowFlagIsSticky : Prop :=
  ∀ s t : State, step s = .next t →
    (s.ovf = true → t.ovf = true ∨ fetchDecode s = .ok .cov) ∧
    (s.ovf = false → t.ovf = true →
      ∃ i : Instr, fetchDecode s = .ok i ∧ (i.mnemonic = .add ∨ i.mnemonic = .addi))

/-- A step that goes on appends to the trace exactly the event of the new pc, if that is annotated; a
step that ends the run appends nothing (R56, R57). -/
def Obligations.TraceFollowsAnnotations : Prop :=
  ∀ s t : State, step s = .next t →
    (t.status = .running →
      (∀ text, s.dbg.find? t.pc.toNat = some text →
        t.trace = s.trace ++ [⟨t.pc, (t.reg? 0#4).getD 0#8, text⟩]) ∧
      (s.dbg.find? t.pc.toNat = none → t.trace = s.trace)) ∧
    (t.status ≠ .running → t.trace = s.trace)

/-- A program cannot observe the trace or the annotations: from states that differ in those alone, a
step gives states that differ in those alone (R41, R167). -/
def Obligations.TraceIsUnobservable : Prop :=
  ∀ s s' t : State, SameButDebug s s' → step s = .next t →
    ∃ t', step s' = .next t' ∧ SameButDebug t t'

/-- Every step from a state of the invariant gives a state of the invariant: the parameters stay in
their limits, the memory in canonical form, and the status is explained by the pc (R11 to R15, R37,
R55 to R57, R75, R148). A halted state stands on a HALT by R56. That an ended status finds the pc and the
program as they were rests on the spec's own decisions D15 (a faulting instruction writes nothing), D17
(HALT ends the step at once) and D26 (state is kept as at the fault, I18: the document reports only the
memory window); the limits are its decisions D10 and D25, the decoder's faults D6 to D8. -/
def Obligations.StepKeepsInvariant : Prop :=
  ∀ s t : State, s.Inv → step s = .next t → t.Inv

/-- The reset state has the invariant; its register count and report window are the model's choices
(log 1, log 4). -/
def Obligations.ResetHasInvariant : Prop := State.reset.Inv

/-- A step from a legal image, where every entry decodes to an instruction whose registers exist, leaves a
legal image and takes none of the four faults that such an image rules out (R75, R153 to R156). The
decoder's faults are the spec's own decisions D6 to D8, the index check's place D14. -/
def Obligations.StepKeepsLegalImage : Prop :=
  ∀ s t : State, LegalImage s → step s = .next t → LegalImage t ∧ NoLoaderFault t

/-! ### Reset and boot -/

/-- Reset leaves every register 0, pc 0, the flag clear, every byte of memory 0, the status Running and
the trace empty. The spec derives these values (R60 to R64; memory is its decision D12). The register
count is the model's choice (log 1). -/
def Obligations.ResetValues : Prop :=
  (∀ j : RegIdx, State.reset.reg? j = some 0#8) ∧ State.reset.pc = 0#8 ∧ State.reset.ovf = false ∧
  (∀ addr : Byte, State.reset.mem.read addr = 0#8) ∧ State.reset.status = .running ∧
  State.reset.trace = []

/-- A run starts with NREG registers, one for each name, all 0, pc 0, the flag clear, status Running, no
trace, and memory at the preload's value where it names the address and 0 elsewhere. The zeros
are the spec's derivations and its decision D12 (R60 to R64, R169). -/
def Obligations.BootLaunchState : Prop :=
  ∀ (m : OpcodeMap) (d : Driver) (src : List Byte) (s : State), boot m d src = .ok s →
    s.nreg = d.names.length ∧ (∀ j : RegIdx, j.toNat < s.nreg → s.reg? j = some 0#8) ∧
    s.pc = 0#8 ∧ s.ovf = false ∧ s.status = .running ∧ s.trace = [] ∧
    (∀ p ∈ d.preload, s.mem.read (BitVec.ofNat 8 p.1) = BitVec.ofNat 8 p.2) ∧
    (∀ addr : Byte, addr.toNat ∉ d.preload.map Prod.fst → s.mem.read addr = 0#8)

/-- A run starts in a state of the invariant (R11 to R15, R112, R170). -/
def Obligations.BootHasInvariant : Prop :=
  ∀ (m : OpcodeMap) (d : Driver) (src : List Byte) (s : State), m.Valid → boot m d src = .ok s → s.Inv

/-- A run starts with a legal image and no fault (R99, R109, R110, R114, R158). -/
def Obligations.BootHasLegalImage : Prop :=
  ∀ (m : OpcodeMap) (d : Driver) (src : List Byte) (s : State), m.Valid → boot m d src = .ok s →
    LegalImage s ∧ NoLoaderFault s

/-! ### The program image -/

/-- The loader reads the source bytes as UTF-8: they decode to a text exactly if they are its encoding, so
every text can be read and ill-formed bytes give none. The spec says UTF-8 (R104); that ill-formed bytes
are refused is the model's choice (log 21). -/
def Obligations.SourceIsUtf8 : Prop :=
  ∀ (src : List Byte) (text : Text), utf8Decode src = some text ↔ src = utf8Encode text

/-- A label's rank is its place in the alphabetical order of all labels, not its address: the spec's
example. The collation is the spec's own decision D9 (R100). -/
def Obligations.RankExample : Prop :=
  let labels : List (Text × Nat) :=
    [(['l', 'o', 'o', 'p'], 2), (['e', 'n', 'd'], 7), (['s', 't', 'a', 'r', 't'], 0)]
  rankOf? labels ['e', 'n', 'd'] = some 0 ∧ rankOf? labels ['l', 'o', 'o', 'p'] = some 1 ∧
  rankOf? labels ['s', 't', 'a', 'r', 't'] = some 2 ∧
  branchTable labels = #v[7, 2, 0, 0, 0, 0, 0, 0, 0, 0, 0, 0, 0, 0, 0, 0]

/-- In a built image every declared label has a rank, and the branch-target table holds its execution
address there; every entry below the label count is some label's, and from the label count on the table
holds 0 (R101). -/
def Obligations.BranchTableMatchesRanks : Prop :=
  ∀ (m : OpcodeMap) (l : Loaded) (p : Image), (l.labels.map Prod.fst).Nodup →
    buildImage m l = .ok p → p.nlab = l.labels.length ∧
    (∀ x ∈ l.labels, ∃ k : Fin 16, rankOf? l.labels x.1 = some k.val ∧ p.btt[k.val].toNat = x.2) ∧
    (∀ k : Fin 16, k.val < l.labels.length →
      ∃ x ∈ l.labels, rankOf? l.labels x.1 = some k.val ∧ p.btt[k.val].toNat = x.2) ∧
    (∀ k : Fin 16, l.labels.length ≤ k.val → p.btt[k.val] = 0#8)

/-- No run of a booted program, however long, ends in an illegal opcode, a reserved field, a bad register
index or a bad memory index (R75, R153 to R156). -/
def Obligations.BootedRunsAreSafe : Prop :=
  ∀ (m : OpcodeMap) (d : Driver) (src : List Byte) (s : State), m.Valid → boot m d src = .ok s →
    SafeImage s

/-! ### Runs and the report -/

/-- A run that ends with some fuel ends in the same state with any more fuel (R59). -/
def Obligations.RunResultIgnoresFuel : Prop :=
  ∀ (n k : Nat) (s t : State), run n s = some t → run (n + k) s = some t

/-- An unconditional branch to its own index never ends: no amount of fuel gives a result (R177). -/
def Obligations.SelfBranchNeverEnds : Prop :=
  ∀ (s : State) (a : RegIdx) (rank : OpField), s.status = .running →
    fetchDecode s = .ok (.b a rank) → s.btt[rank.toNat] = s.pc → ∀ n : Nat, run n s = none

/-- An ended run reports its status, its trace and the bytes of memory from MEM_MIN to MEM_MAX in
address order; a running machine reports nothing (R84, R172). -/
def Obligations.ReportIsTheWindow : Prop :=
  ∀ s : State, s.memMin.toNat ≤ s.memMax.toNat →
    (s.status = .running → report s = none) ∧
    (s.status ≠ .running → ∃ r, report s = some r ∧ r.outcome = s.status ∧ r.trace = s.trace ∧
      r.memory.length = s.memMax.toNat - s.memMin.toNat + 1 ∧
      ∀ k : Nat, k ≤ s.memMax.toNat - s.memMin.toNat →
        r.memory[k]? = some (s.mem.read (BitVec.ofNat 8 (s.memMin.toNat + k))))
end

