-- ==== Sys2Proof/Laws/Encoding.lean ====
section
/-! SUPPORT. Fields of an encoded word, and opcode lookup under an admissible map. -/

namespace Sys2Proof

/-- The number an opcode and a field put together stand for. -/
theorem append_toNat (o : Opcode) (f : OpField) : (o ++ f : InstrWord).toNat = o.toNat * 16 + f.toNat := by
  have h := BitVec.toNat_append o f
  rw [← Nat.shiftLeft_add_eq_or_of_lt f.isLt, Nat.shiftLeft_eq] at h
  exact h

/-- The opcode field of an encoded word is the mnemonic's value (R99). -/
@[simp] theorem opcodeField_append (o : Opcode) (f : OpField) : opcodeField (o ++ f) = o := by
  apply BitVec.eq_of_toNat_eq
  simp only [opcodeField, BitVec.extractLsb'_toNat, append_toNat, Nat.shiftRight_eq_div_pow]
  omega

/-- The operand field of an encoded word is the instruction's field (R99). -/
@[simp] theorem fieldOf_append (o : Opcode) (f : OpField) : fieldOf (o ++ f) = f := by
  apply BitVec.eq_of_toNat_eq
  simp only [fieldOf, BitVec.extractLsb'_toNat, append_toNat, Nat.shiftRight_eq_div_pow]
  omega

/-- A word is its two fields put together (R85). -/
theorem opcodeField_append_fieldOf (w : InstrWord) : opcodeField w ++ fieldOf w = w := by
  apply BitVec.eq_of_toNat_eq
  simp only [append_toNat, opcodeField, fieldOf, BitVec.extractLsb'_toNat, Nat.shiftRight_eq_div_pow]
  omega

/-- The list of mnemonics is complete. -/
theorem Mnemonic.mem_all (k : Mnemonic) : k ∈ Mnemonic.all := by cases k <;> decide

/-- An admissible map gives two mnemonics different values (R14). -/
theorem OpcodeMap.code_injective (m : OpcodeMap) (h : m.Valid) {j k : Mnemonic}
    (e : m.code j = m.code k) : j = k :=
  List.inj_on_of_nodup_map h.1 (Mnemonic.mem_all j) (Mnemonic.mem_all k) e

/-- A mnemonic found for an opcode value has that value. -/
theorem OpcodeMap.code_of_mnemonic? (m : OpcodeMap) {o : Opcode} {k : Mnemonic}
    (h : m.mnemonic? o = some k) : m.code k = o := by
  simpa using List.find?_some h

/-- The mnemonic of a mnemonic's value is itself, under an admissible map. -/
theorem OpcodeMap.mnemonic?_code (m : OpcodeMap) (h : m.Valid) (k : Mnemonic) :
    m.mnemonic? (m.code k) = some k := by
  cases hf : m.mnemonic? (m.code k) with
  | none =>
    have := List.find?_eq_none.mp hf k (Mnemonic.mem_all k)
    simp at this
  | some j => rw [m.code_injective h (m.code_of_mnemonic? hf)]

/-- No mnemonic is found exactly when no mnemonic has the value. -/
theorem OpcodeMap.mnemonic?_eq_none (m : OpcodeMap) (o : Opcode) :
    m.mnemonic? o = none ↔ ∀ k, m.code k ≠ o := by
  simp [OpcodeMap.mnemonic?, Mnemonic.mem_all]

end Sys2Proof
end

