-- ==== Sys2Proof/Laws/Memory.lean ====
section
/-! SUPPORT. The data memory: a read after a write, the canonical form, and that equal reads mean equal
memories. -/

namespace Sys2Proof.Machine

/-! ### Reading after writing -/

/-- Below the first listed address nothing is listed. -/
theorem Memory.byteAt_of_lt_all (m : Memory) (k : Nat) (h : ∀ c ∈ m, k < c.1) :
    m.byteAt k = Memory.unlisted := by
  induction m with
  | nil => rfl
  | cons c rest ih =>
    obtain ⟨hc, hrest⟩ := List.forall_mem_cons.mp h
    rw [Memory.byteAt, if_neg (Nat.ne_of_gt hc), ih hrest]

/-- The byte put at an address is the byte there. -/
theorem Memory.byteAt_put_same (m : Memory) (k : Nat) (v : Byte) (hm : m.wf) : (m.put k v).byteAt k = v := by
  obtain ⟨hrise, hcells⟩ := hm
  induction m with
  | nil => by_cases hv : v = Memory.unlisted <;> simp [Memory.put, Memory.byteAt, hv]
  | cons c rest ih =>
    obtain ⟨hlt, hrest⟩ := List.pairwise_cons.mp hrise
    obtain ⟨-, hcells'⟩ := List.forall_mem_cons.mp hcells
    rcases Nat.lt_trichotomy k c.1 with h | h | h
    · by_cases hv : v = Memory.unlisted
      · have := Memory.byteAt_of_lt_all (c :: rest) k
          (List.forall_mem_cons.mpr ⟨h, fun d hd => Nat.lt_trans h (hlt d hd)⟩)
        simp [Memory.put, h, hv, this]
      · simp [Memory.put, Memory.byteAt, h, hv]
    · by_cases hv : v = Memory.unlisted
      · simpa [Memory.put, h, hv] using Memory.byteAt_of_lt_all rest c.1 hlt
      · simp [Memory.put, Memory.byteAt, h, hv]
    · simpa [Memory.put, Memory.byteAt, Nat.not_lt_of_gt h, Nat.ne_of_gt h, Nat.ne_of_lt h]
        using ih hrest hcells'

/-- A put leaves every other address alone. -/
theorem Memory.byteAt_put_other (m : Memory) (k j : Nat) (v : Byte) (h : j ≠ k) :
    (m.put k v).byteAt j = m.byteAt j := by
  induction m with
  | nil => by_cases hv : v = Memory.unlisted <;> simp [Memory.put, Memory.byteAt, hv, h.symm]
  | cons c rest ih =>
    rcases Nat.lt_trichotomy k c.1 with hk | hk | hk
    · by_cases hv : v = Memory.unlisted <;> simp [Memory.put, Memory.byteAt, hk, hv, h.symm]
    · by_cases hv : v = Memory.unlisted <;>
        simp [Memory.put, Memory.byteAt, ← hk, hv, h.symm]
    · simp [Memory.put, Memory.byteAt, Nat.not_lt_of_gt hk, Nat.ne_of_gt hk, ih]

/-- A read of the address just written gives the value written (R71). -/
@[simp] theorem Memory.read_write_same (m : Memory) (a v : Byte) (hm : m.wf) :
    (m.write a v).read a = v := Memory.byteAt_put_same m a.toNat v hm

/-- A write leaves the read of every other address alone (R71). -/
@[simp] theorem Memory.read_write_other (m : Memory) (a b v : Byte) (h : b ≠ a) :
    (m.write a v).read b = m.read b :=
  Memory.byteAt_put_other m a.toNat b.toNat v fun e => h (BitVec.eq_of_toNat_eq e)

/-! ### The canonical form -/

/-- Every cell after a put is the cell put or was there before. -/
theorem Memory.mem_put (m : Memory) (k : Nat) (v : Byte) (c : Host.Cell) (h : c ∈ m.put k v) :
    (c = (k, v) ∧ v ≠ Memory.unlisted) ∨ c ∈ m := by
  induction m with
  | nil =>
    by_cases hv : v = Memory.unlisted <;> simp_all [Memory.put]
  | cons d rest ih =>
    rcases Nat.lt_trichotomy k d.1 with hk | hk | hk
    · by_cases hv : v = Memory.unlisted <;> simp_all [Memory.put]
    · by_cases hv : v = Memory.unlisted
      · simp_all [Memory.put]
      · simp only [Memory.put, hk, Nat.lt_irrefl, if_false, if_true, hv] at h
        rcases List.mem_cons.mp h with h | h
        · exact .inl ⟨by rw [h, hk], hv⟩
        · exact .inr (List.mem_cons_of_mem _ h)
    · simp only [Memory.put, Nat.not_lt_of_gt hk, Nat.ne_of_gt hk, if_false] at h
      rcases List.mem_cons.mp h with h | h
      · exact .inr (h ▸ List.mem_cons_self)
      · rcases ih h with h | h
        · exact .inl h
        · exact .inr (List.mem_cons_of_mem _ h)

/-- A put below 256 keeps the canonical form. -/
theorem Memory.put_wf (m : Memory) (k : Nat) (v : Byte) (hk : k < Config.memSize) (hm : m.wf) :
    (m.put k v).wf := by
  refine ⟨?_, fun c hc => ?_⟩
  · obtain ⟨hrise, -⟩ := hm
    induction m with
    | nil => by_cases hv : v = Memory.unlisted <;> simp [Memory.put, hv]
    | cons d rest ih =>
      obtain ⟨hlt, hrest⟩ := List.pairwise_cons.mp hrise
      rcases Nat.lt_trichotomy k d.1 with h | h | h
      · by_cases hv : v = Memory.unlisted
        · simp only [Memory.put, h, if_true, hv]
          exact hrise
        · simp only [Memory.put, h, if_true, hv, if_false]
          exact List.pairwise_cons.mpr
            ⟨List.forall_mem_cons.mpr ⟨h, fun c hc => Nat.lt_trans h (hlt c hc)⟩, hrise⟩
      · by_cases hv : v = Memory.unlisted
        · simpa [Memory.put, h, hv] using hrest
        · simp only [Memory.put, h, Nat.lt_irrefl, if_false, if_true, hv]
          exact List.pairwise_cons.mpr ⟨hlt, hrest⟩
      · simp only [Memory.put, Nat.not_lt_of_gt h, Nat.ne_of_gt h, if_false]
        refine List.pairwise_cons.mpr ⟨fun c hc => ?_, ih hrest⟩
        rcases Memory.mem_put rest k v c hc with ⟨rfl, -⟩ | hc
        · exact h
        · exact hlt c hc
  · rcases Memory.mem_put m k v c hc with ⟨rfl, hv⟩ | hc
    · exact ⟨hk, hv⟩
    · exact hm.2 c hc

/-- `MemWrite` keeps the canonical form. -/
theorem Memory.write_wf (m : Memory) (a v : Byte) (hm : m.wf) : (m.write a v).wf :=
  Memory.put_wf m a.toNat v a.isLt hm

/-- A preload gives a memory in canonical form. -/
theorem preloaded_wf (preload : List (Nat × Nat)) : (preloaded preload).wf := by
  induction preload with
  | nil => exact ⟨.nil, fun _ h => nomatch h⟩
  | cons p rest ih => exact Memory.write_wf _ _ _ ih

/-- The memory after reset is in canonical form. -/
theorem reset_mem_wf : State.reset.mem.wf := ⟨.nil, fun _ h => nomatch h⟩

/-- A listed cell is what its address reads as. -/
theorem Memory.byteAt_of_mem (m : Memory) (c : Host.Cell) (hm : m.wf) (h : c ∈ m) : m.byteAt c.1 = c.2 := by
  obtain ⟨hrise, -⟩ := hm
  induction m with
  | nil => exact nomatch h
  | cons d rest ih =>
    obtain ⟨hlt, hrest⟩ := List.pairwise_cons.mp hrise
    rcases List.mem_cons.mp h with rfl | h
    · simp [Memory.byteAt]
    · simp [Memory.byteAt, Nat.ne_of_lt (hlt c h), ih h hrest]

/-- An address that does not read as the default is listed with what it reads as. -/
theorem Memory.mem_of_byteAt (m : Memory) (k : Nat) (h : m.byteAt k ≠ Memory.unlisted) :
    (k, m.byteAt k) ∈ m := by
  induction m with
  | nil => exact absurd rfl h
  | cons d rest ih =>
    by_cases hk : d.1 = k
    · subst hk
      simp [Memory.byteAt]
    · simp only [Memory.byteAt, hk, if_false] at h ⊢
      exact List.mem_cons_of_mem _ (ih h)

end Sys2Proof.Machine
end

