-- ==== Sys2Proof/Laws/State.lean ====
section
/-! SUPPORT. One lemma per field per state update, so that no proof unfolds a record update. -/

namespace Sys2Proof.Machine

/-! ### `State.setReg` -/

@[simp] theorem State.setReg_regs (s : State) (i : RegIdx) (v : Byte) : (s.setReg i v).regs = s.regs.set i.toNat v :=
  rfl
@[simp] theorem State.setReg_pc (s : State) (i : RegIdx) (v : Byte) : (s.setReg i v).pc = s.pc :=
  rfl
@[simp] theorem State.setReg_ovf (s : State) (i : RegIdx) (v : Byte) : (s.setReg i v).ovf = s.ovf :=
  rfl
@[simp] theorem State.setReg_mem (s : State) (i : RegIdx) (v : Byte) : (s.setReg i v).mem = s.mem :=
  rfl
@[simp] theorem State.setReg_status (s : State) (i : RegIdx) (v : Byte) : (s.setReg i v).status = s.status :=
  rfl
@[simp] theorem State.setReg_trace (s : State) (i : RegIdx) (v : Byte) : (s.setReg i v).trace = s.trace :=
  rfl
@[simp] theorem State.setReg_imem (s : State) (i : RegIdx) (v : Byte) : (s.setReg i v).imem = s.imem :=
  rfl
@[simp] theorem State.setReg_btt (s : State) (i : RegIdx) (v : Byte) : (s.setReg i v).btt = s.btt :=
  rfl
@[simp] theorem State.setReg_nlab (s : State) (i : RegIdx) (v : Byte) : (s.setReg i v).nlab = s.nlab :=
  rfl
@[simp] theorem State.setReg_dbg (s : State) (i : RegIdx) (v : Byte) : (s.setReg i v).dbg = s.dbg :=
  rfl
@[simp] theorem State.setReg_opcodeMap (s : State) (i : RegIdx) (v : Byte) : (s.setReg i v).opcodeMap = s.opcodeMap :=
  rfl
@[simp] theorem State.setReg_memMin (s : State) (i : RegIdx) (v : Byte) : (s.setReg i v).memMin = s.memMin :=
  rfl
@[simp] theorem State.setReg_memMax (s : State) (i : RegIdx) (v : Byte) : (s.setReg i v).memMax = s.memMax :=
  rfl

/-! ### `State.setPc` -/

@[simp] theorem State.setPc_regs (s : State) (v : Byte) : (s.setPc v).regs = s.regs := rfl
@[simp] theorem State.setPc_pc (s : State) (v : Byte) : (s.setPc v).pc = v := rfl
@[simp] theorem State.setPc_ovf (s : State) (v : Byte) : (s.setPc v).ovf = s.ovf := rfl
@[simp] theorem State.setPc_mem (s : State) (v : Byte) : (s.setPc v).mem = s.mem := rfl
@[simp] theorem State.setPc_status (s : State) (v : Byte) : (s.setPc v).status = s.status := rfl
@[simp] theorem State.setPc_trace (s : State) (v : Byte) : (s.setPc v).trace = s.trace := rfl
@[simp] theorem State.setPc_imem (s : State) (v : Byte) : (s.setPc v).imem = s.imem := rfl
@[simp] theorem State.setPc_btt (s : State) (v : Byte) : (s.setPc v).btt = s.btt := rfl
@[simp] theorem State.setPc_nlab (s : State) (v : Byte) : (s.setPc v).nlab = s.nlab := rfl
@[simp] theorem State.setPc_dbg (s : State) (v : Byte) : (s.setPc v).dbg = s.dbg := rfl
@[simp] theorem State.setPc_opcodeMap (s : State) (v : Byte) : (s.setPc v).opcodeMap = s.opcodeMap :=
  rfl
@[simp] theorem State.setPc_memMin (s : State) (v : Byte) : (s.setPc v).memMin = s.memMin := rfl
@[simp] theorem State.setPc_memMax (s : State) (v : Byte) : (s.setPc v).memMax = s.memMax := rfl

/-! ### `State.setOvf` -/

@[simp] theorem State.setOvf_regs (s : State) (b : Bool) : (s.setOvf b).regs = s.regs := rfl
@[simp] theorem State.setOvf_pc (s : State) (b : Bool) : (s.setOvf b).pc = s.pc := rfl
@[simp] theorem State.setOvf_ovf (s : State) (b : Bool) : (s.setOvf b).ovf = b := rfl
@[simp] theorem State.setOvf_mem (s : State) (b : Bool) : (s.setOvf b).mem = s.mem := rfl
@[simp] theorem State.setOvf_status (s : State) (b : Bool) : (s.setOvf b).status = s.status := rfl
@[simp] theorem State.setOvf_trace (s : State) (b : Bool) : (s.setOvf b).trace = s.trace := rfl
@[simp] theorem State.setOvf_imem (s : State) (b : Bool) : (s.setOvf b).imem = s.imem := rfl
@[simp] theorem State.setOvf_btt (s : State) (b : Bool) : (s.setOvf b).btt = s.btt := rfl
@[simp] theorem State.setOvf_nlab (s : State) (b : Bool) : (s.setOvf b).nlab = s.nlab := rfl
@[simp] theorem State.setOvf_dbg (s : State) (b : Bool) : (s.setOvf b).dbg = s.dbg := rfl
@[simp] theorem State.setOvf_opcodeMap (s : State) (b : Bool) : (s.setOvf b).opcodeMap = s.opcodeMap :=
  rfl
@[simp] theorem State.setOvf_memMin (s : State) (b : Bool) : (s.setOvf b).memMin = s.memMin := rfl
@[simp] theorem State.setOvf_memMax (s : State) (b : Bool) : (s.setOvf b).memMax = s.memMax := rfl

/-! ### `State.setMem` -/

@[simp] theorem State.setMem_regs (s : State) (m : Memory) : (s.setMem m).regs = s.regs := rfl
@[simp] theorem State.setMem_pc (s : State) (m : Memory) : (s.setMem m).pc = s.pc := rfl
@[simp] theorem State.setMem_ovf (s : State) (m : Memory) : (s.setMem m).ovf = s.ovf := rfl
@[simp] theorem State.setMem_mem (s : State) (m : Memory) : (s.setMem m).mem = m := rfl
@[simp] theorem State.setMem_status (s : State) (m : Memory) : (s.setMem m).status = s.status := rfl
@[simp] theorem State.setMem_trace (s : State) (m : Memory) : (s.setMem m).trace = s.trace := rfl
@[simp] theorem State.setMem_imem (s : State) (m : Memory) : (s.setMem m).imem = s.imem := rfl
@[simp] theorem State.setMem_btt (s : State) (m : Memory) : (s.setMem m).btt = s.btt := rfl
@[simp] theorem State.setMem_nlab (s : State) (m : Memory) : (s.setMem m).nlab = s.nlab := rfl
@[simp] theorem State.setMem_dbg (s : State) (m : Memory) : (s.setMem m).dbg = s.dbg := rfl
@[simp] theorem State.setMem_opcodeMap (s : State) (m : Memory) : (s.setMem m).opcodeMap = s.opcodeMap :=
  rfl
@[simp] theorem State.setMem_memMin (s : State) (m : Memory) : (s.setMem m).memMin = s.memMin := rfl
@[simp] theorem State.setMem_memMax (s : State) (m : Memory) : (s.setMem m).memMax = s.memMax := rfl

/-! ### `State.raiseFault` -/

@[simp] theorem State.raiseFault_regs (s : State) (r : FaultReason) : (s.raiseFault r).regs = s.regs :=
  rfl
@[simp] theorem State.raiseFault_pc (s : State) (r : FaultReason) : (s.raiseFault r).pc = s.pc :=
  rfl
@[simp] theorem State.raiseFault_ovf (s : State) (r : FaultReason) : (s.raiseFault r).ovf = s.ovf :=
  rfl
@[simp] theorem State.raiseFault_mem (s : State) (r : FaultReason) : (s.raiseFault r).mem = s.mem :=
  rfl
@[simp] theorem State.raiseFault_status (s : State) (r : FaultReason) : (s.raiseFault r).status = .faulted r :=
  rfl
@[simp] theorem State.raiseFault_trace (s : State) (r : FaultReason) : (s.raiseFault r).trace = s.trace :=
  rfl
@[simp] theorem State.raiseFault_imem (s : State) (r : FaultReason) : (s.raiseFault r).imem = s.imem :=
  rfl
@[simp] theorem State.raiseFault_btt (s : State) (r : FaultReason) : (s.raiseFault r).btt = s.btt :=
  rfl
@[simp] theorem State.raiseFault_nlab (s : State) (r : FaultReason) : (s.raiseFault r).nlab = s.nlab :=
  rfl
@[simp] theorem State.raiseFault_dbg (s : State) (r : FaultReason) : (s.raiseFault r).dbg = s.dbg :=
  rfl
@[simp] theorem State.raiseFault_opcodeMap (s : State) (r : FaultReason) : (s.raiseFault r).opcodeMap = s.opcodeMap :=
  rfl
@[simp] theorem State.raiseFault_memMin (s : State) (r : FaultReason) : (s.raiseFault r).memMin = s.memMin :=
  rfl
@[simp] theorem State.raiseFault_memMax (s : State) (r : FaultReason) : (s.raiseFault r).memMax = s.memMax :=
  rfl

/-! ### `State.halt` -/

@[simp] theorem State.halt_regs (s : State) : s.halt.regs = s.regs := rfl
@[simp] theorem State.halt_pc (s : State) : s.halt.pc = s.pc := rfl
@[simp] theorem State.halt_ovf (s : State) : s.halt.ovf = s.ovf := rfl
@[simp] theorem State.halt_mem (s : State) : s.halt.mem = s.mem := rfl
@[simp] theorem State.halt_status (s : State) : s.halt.status = .halted := rfl
@[simp] theorem State.halt_trace (s : State) : s.halt.trace = s.trace := rfl
@[simp] theorem State.halt_imem (s : State) : s.halt.imem = s.imem := rfl
@[simp] theorem State.halt_btt (s : State) : s.halt.btt = s.btt := rfl
@[simp] theorem State.halt_nlab (s : State) : s.halt.nlab = s.nlab := rfl
@[simp] theorem State.halt_dbg (s : State) : s.halt.dbg = s.dbg := rfl
@[simp] theorem State.halt_opcodeMap (s : State) : s.halt.opcodeMap = s.opcodeMap := rfl
@[simp] theorem State.halt_memMin (s : State) : s.halt.memMin = s.memMin := rfl
@[simp] theorem State.halt_memMax (s : State) : s.halt.memMax = s.memMax := rfl

/-! ### `State.emitTrace` -/

@[simp] theorem State.emitTrace_regs (s : State) : s.emitTrace.regs = s.regs := rfl
@[simp] theorem State.emitTrace_pc (s : State) : s.emitTrace.pc = s.pc := rfl
@[simp] theorem State.emitTrace_ovf (s : State) : s.emitTrace.ovf = s.ovf := rfl
@[simp] theorem State.emitTrace_mem (s : State) : s.emitTrace.mem = s.mem := rfl
@[simp] theorem State.emitTrace_status (s : State) : s.emitTrace.status = s.status := rfl
@[simp] theorem State.emitTrace_trace (s : State) : s.emitTrace.trace = s.trace ++ s.traceEvents :=
  rfl
@[simp] theorem State.emitTrace_imem (s : State) : s.emitTrace.imem = s.imem := rfl
@[simp] theorem State.emitTrace_btt (s : State) : s.emitTrace.btt = s.btt := rfl
@[simp] theorem State.emitTrace_nlab (s : State) : s.emitTrace.nlab = s.nlab := rfl
@[simp] theorem State.emitTrace_dbg (s : State) : s.emitTrace.dbg = s.dbg := rfl
@[simp] theorem State.emitTrace_opcodeMap (s : State) : s.emitTrace.opcodeMap = s.opcodeMap := rfl
@[simp] theorem State.emitTrace_memMin (s : State) : s.emitTrace.memMin = s.memMin := rfl
@[simp] theorem State.emitTrace_memMax (s : State) : s.emitTrace.memMax = s.memMax := rfl

/-! ### `State.install` -/

@[simp] theorem State.install_regs (s : State) (p : Image) : (s.install p).regs = s.regs := rfl
@[simp] theorem State.install_pc (s : State) (p : Image) : (s.install p).pc = s.pc := rfl
@[simp] theorem State.install_ovf (s : State) (p : Image) : (s.install p).ovf = s.ovf := rfl
@[simp] theorem State.install_mem (s : State) (p : Image) : (s.install p).mem = s.mem := rfl
@[simp] theorem State.install_status (s : State) (p : Image) : (s.install p).status = s.status :=
  rfl
@[simp] theorem State.install_trace (s : State) (p : Image) : (s.install p).trace = s.trace := rfl
@[simp] theorem State.install_imem (s : State) (p : Image) : (s.install p).imem = p.imem := rfl
@[simp] theorem State.install_btt (s : State) (p : Image) : (s.install p).btt = p.btt := rfl
@[simp] theorem State.install_nlab (s : State) (p : Image) : (s.install p).nlab = p.nlab := rfl
@[simp] theorem State.install_dbg (s : State) (p : Image) : (s.install p).dbg = p.dbg := rfl
@[simp] theorem State.install_opcodeMap (s : State) (p : Image) : (s.install p).opcodeMap = s.opcodeMap :=
  rfl
@[simp] theorem State.install_memMin (s : State) (p : Image) : (s.install p).memMin = s.memMin :=
  rfl
@[simp] theorem State.install_memMax (s : State) (p : Image) : (s.install p).memMax = s.memMax :=
  rfl

/-! ### `State.placeWord` -/

@[simp] theorem State.placeWord_regs (s : State) (w : InstrWord) : (s.placeWord w).regs = s.regs :=
  rfl
@[simp] theorem State.placeWord_pc (s : State) (w : InstrWord) : (s.placeWord w).pc = s.pc := rfl
@[simp] theorem State.placeWord_ovf (s : State) (w : InstrWord) : (s.placeWord w).ovf = s.ovf := rfl
@[simp] theorem State.placeWord_mem (s : State) (w : InstrWord) : (s.placeWord w).mem = s.mem := rfl
@[simp] theorem State.placeWord_status (s : State) (w : InstrWord) : (s.placeWord w).status = .running :=
  rfl
@[simp] theorem State.placeWord_trace (s : State) (w : InstrWord) : (s.placeWord w).trace = s.trace :=
  rfl
@[simp] theorem State.placeWord_imem (s : State) (w : InstrWord) : (s.placeWord w).imem = placeEntry s.imem s.pc.toNat (bareEntry w) :=
  rfl
@[simp] theorem State.placeWord_btt (s : State) (w : InstrWord) : (s.placeWord w).btt = s.btt := rfl
@[simp] theorem State.placeWord_nlab (s : State) (w : InstrWord) : (s.placeWord w).nlab = s.nlab :=
  rfl
@[simp] theorem State.placeWord_dbg (s : State) (w : InstrWord) : (s.placeWord w).dbg = s.dbg := rfl
@[simp] theorem State.placeWord_opcodeMap (s : State) (w : InstrWord) : (s.placeWord w).opcodeMap = s.opcodeMap :=
  rfl
@[simp] theorem State.placeWord_memMin (s : State) (w : InstrWord) : (s.placeWord w).memMin = s.memMin :=
  rfl
@[simp] theorem State.placeWord_memMax (s : State) (w : InstrWord) : (s.placeWord w).memMax = s.memMax :=
  rfl

/-! ### `State.latchOverflow` -/

@[simp] theorem State.latchOverflow_ovf (s : State) (sig : Signal) :
    (s.latchOverflow sig).ovf = (s.ovf || decide (sig = .overflow)) := by
  cases sig <;> simp [State.latchOverflow]

@[simp] theorem State.latchOverflow_regs (s : State) (sig : Signal) :
    (s.latchOverflow sig).regs = s.regs := by cases sig <;> rfl

@[simp] theorem State.latchOverflow_pc (s : State) (sig : Signal) :
    (s.latchOverflow sig).pc = s.pc := by cases sig <;> rfl

@[simp] theorem State.latchOverflow_mem (s : State) (sig : Signal) :
    (s.latchOverflow sig).mem = s.mem := by cases sig <;> rfl

@[simp] theorem State.latchOverflow_status (s : State) (sig : Signal) :
    (s.latchOverflow sig).status = s.status := by cases sig <;> rfl

@[simp] theorem State.latchOverflow_trace (s : State) (sig : Signal) :
    (s.latchOverflow sig).trace = s.trace := by cases sig <;> rfl

@[simp] theorem State.latchOverflow_imem (s : State) (sig : Signal) :
    (s.latchOverflow sig).imem = s.imem := by cases sig <;> rfl

@[simp] theorem State.latchOverflow_btt (s : State) (sig : Signal) :
    (s.latchOverflow sig).btt = s.btt := by cases sig <;> rfl

@[simp] theorem State.latchOverflow_nlab (s : State) (sig : Signal) :
    (s.latchOverflow sig).nlab = s.nlab := by cases sig <;> rfl

@[simp] theorem State.latchOverflow_dbg (s : State) (sig : Signal) :
    (s.latchOverflow sig).dbg = s.dbg := by cases sig <;> rfl

@[simp] theorem State.latchOverflow_opcodeMap (s : State) (sig : Signal) :
    (s.latchOverflow sig).opcodeMap = s.opcodeMap := by cases sig <;> rfl

@[simp] theorem State.latchOverflow_memMin (s : State) (sig : Signal) :
    (s.latchOverflow sig).memMin = s.memMin := by cases sig <;> rfl

@[simp] theorem State.latchOverflow_memMax (s : State) (sig : Signal) :
    (s.latchOverflow sig).memMax = s.memMax := by cases sig <;> rfl

end Sys2Proof.Machine
end

