-- ==== Sys2Proof/Laws/Ops.lean ====
section
/-! SUPPORT. One lemma per shared operation that says all it can do. -/

namespace Sys2Proof.Machine

/-! ### Register file (R45) -/

@[simp] theorem State.nreg_setReg (s : State) (d : RegIdx) (v : Byte) :
    (s.setReg d v).nreg = s.nreg := List.length_set

/-- A written register reads as the value written, where it exists. -/
theorem State.reg?_setReg_same (s : State) (d : RegIdx) (v : Byte) (h : d.toNat < s.nreg) :
    (s.setReg d v).reg? d = some v := by
  unfold State.nreg at h
  simp [State.reg?, State.setReg, h]

/-- A write leaves every other register alone. -/
theorem State.reg?_setReg_other (s : State) (d j : RegIdx) (v : Byte) (h : j ≠ d) :
    (s.setReg d v).reg? j = s.reg? j := by
  have : d.toNat ≠ j.toNat := fun e => h (BitVec.eq_of_toNat_eq e).symm
  simp [State.reg?, State.setReg, this]

/-- A checked register reads as the value the sequencer uses. -/
theorem State.reg?_eq_reg (s : State) (j : RegIdx) (h : j.toNat < s.nreg) :
    s.reg? j = some (s.reg j) := by
  unfold State.nreg at h
  simp [State.reg, State.reg?, h]

/-- The value of a register that reads as `v`. -/
theorem State.reg_of_reg? (s : State) (j : RegIdx) (v : Byte) (h : s.reg? j = some v) :
    s.reg j = v := by simp [State.reg, h]

/-- Reading depends on the register file alone. -/
theorem State.reg?_congr (s t : State) (j : RegIdx) (h : t.regs = s.regs) : t.reg? j = s.reg? j := by
  simp [State.reg?, h]

theorem State.reg_congr (s t : State) (j : RegIdx) (h : t.regs = s.regs) : t.reg j = s.reg j := by
  simp [State.reg, State.reg?_congr s t j h]

theorem State.nreg_congr (s t : State) (h : t.regs = s.regs) : t.nreg = s.nreg := by
  simp [State.nreg, h]

/-! ### Index check (R53) -/

/-- The check passes exactly when every index names a register. -/
theorem State.hasRegs_iff (s : State) (js : List RegIdx) :
    s.hasRegs js = true ↔ ∀ j ∈ js, j.toNat < s.nreg := by simp [State.hasRegs]

/-- With every index in range the instruction has its effect. -/
theorem checkRegs_pass (js : List RegIdx) (s : State) (e : Result)
    (h : ∀ j ∈ js, j.toNat < s.nreg) : checkRegs js s e = e := by
  simp [checkRegs, (s.hasRegs_iff js).mpr h]

/-- With an index out of range the fault is taken. -/
theorem checkRegs_fail (js : List RegIdx) (s : State) (e : Result)
    (h : ¬ ∀ j ∈ js, j.toNat < s.nreg) :
    checkRegs js s e = .next (s.raiseFault .registerIndexOutOfBounds) := by
  rw [checkRegs, if_neg (mt (s.hasRegs_iff js).mp h)]

/-! ### Retiring (R53 steps 3 to 5) -/

theorem State.incPc?_of_ne (s : State) (h : s.pc ≠ 255#8) : s.incPc? = some (s.setPc (s.pc + 1#8)) := by
  simp [State.incPc?, h]

theorem State.incPc?_of_eq (s : State) (h : s.pc = 255#8) : s.incPc? = none := by
  simp [State.incPc?, h]

/-- The increment adds exactly 1: it never wraps (R31). -/
theorem pc_succ_toNat (p : Byte) (h : p ≠ 255#8) : (p + 1#8).toNat = p.toNat + 1 := by
  bv_omega

/-- Retiring without a branch, below 255: the pc goes on, the flag is latched, the trace appended. -/
theorem retire_next (sig : Signal) (s : State) (hb : sig ≠ .branch) (h : s.pc ≠ 255#8) :
    retire sig s = .next ((s.setPc (s.pc + 1#8)).latchOverflow sig).emitTrace := by
  cases sig <;> simp_all [retire, retireNext, State.incPc?_of_ne]

/-- Retiring without a branch at 255: the pc overflow, and no flag is set (R54). -/
theorem retire_overflow (sig : Signal) (s : State) (hb : sig ≠ .branch) (h : s.pc = 255#8) :
    retire sig s = .next (s.raiseFault .pcOverflow) := by
  cases sig <;> simp_all [retire, retireNext, State.incPc?_of_eq]

/-- Retiring a taken branch: only the trace is appended. -/
@[simp] theorem retire_branch (s : State) : retire .branch s = .next s.emitTrace := rfl

/-- All that retiring can do. -/
theorem retire_cases (sig : Signal) (s : State) :
    (sig ≠ .branch ∧ s.pc = 255#8 ∧ retire sig s = .next (s.raiseFault .pcOverflow)) ∨
    (sig ≠ .branch ∧ s.pc ≠ 255#8 ∧
      retire sig s = .next ((s.setPc (s.pc + 1#8)).latchOverflow sig).emitTrace) ∨
    (sig = .branch ∧ retire sig s = .next s.emitTrace) := by
  by_cases hb : sig = .branch
  · subst hb
    exact .inr (.inr ⟨rfl, rfl⟩)
  · by_cases h : s.pc = 255#8
    · exact .inl ⟨hb, h, retire_overflow sig s hb h⟩
    · exact .inr (.inl ⟨hb, h, retire_next sig s hb h⟩)

/-! ### Writing an ALU result (R53, R55) -/

/-- All that writing an ALU result can do. -/
theorem writeAlu_cases (d : RegIdx) (out : Except FaultReason AluOut) (s : State) :
    (∃ r, out = .error r ∧ writeAlu d out s = .next (s.raiseFault r)) ∨
    (∃ o, out = .ok o ∧ writeAlu d out s = retire (signalOf o.ovfOut) (s.setReg d o.result)) := by
  cases out with
  | error r => exact .inl ⟨r, rfl, rfl⟩
  | ok o => exact .inr ⟨o, rfl, rfl⟩

theorem signalOf_ne_branch (b : Bool) : signalOf b ≠ .branch := by cases b <;> simp [signalOf]

/-- A fault-free ALU result below pc 255: the register is written and the instruction retires. -/
theorem writeAlu_next (d : RegIdx) (o : AluOut) (s : State) (h : s.pc ≠ 255#8) :
    writeAlu d (.ok o) s =
      .next (((s.setReg d o.result).setPc (s.pc + 1#8)).latchOverflow (signalOf o.ovfOut)).emitTrace :=
  retire_next _ _ (signalOf_ne_branch _) h

/-- A faulting ALU writes nothing. -/
@[simp] theorem writeAlu_error (d : RegIdx) (r : FaultReason) (s : State) :
    writeAlu d (.error r) s = .next (s.raiseFault r) := rfl

/-! ### The ALU's faults (R49) -/

/-- The ALU faults in SUB and the shifts only. -/
theorem alu_error (op : AluOp) (p q : Byte) (r : FaultReason) (h : alu op p q = .error r) :
    (op = .sub ∧ r = .subtractionUnderflow ∧ p.toNat < q.toNat) ∨
    ((op = .shl ∨ op = .shr) ∧ r = .shiftOutOfRange ∧ 7 < q.toNat) := by
  cases op <;> simp only [alu, aluValue, aluAdd, aluSub, aluShift] at h <;>
    first
    | cases h
    | (split at h <;> cases h; simp_all)

/-- The ALU's overflow output is set by an addition only, and exactly when the sum is 256 or more. -/
theorem alu_ovfOut (op : AluOp) (p q : Byte) (o : AluOut) (h : alu op p q = .ok o) :
    o.ovfOut = true ↔ op = .add ∧ 256 ≤ p.toNat + q.toNat := by
  cases op <;> simp only [alu, aluValue, aluAdd, aluSub, aluShift] at h <;>
    first
    | (cases h; simp)
    | (split at h <;> cases h; simp)

/-! ### Fetch and decode (R47, R91) -/

/-- Where `pc >= L` the fetch faults. -/
theorem fetch_out_of_range (s : State) (h : s.imem.length ≤ s.pc.toNat) :
    fetch s = .error .fetchOutOfRange := by
  simp [fetch, List.getElem?_eq_none h]

/-- All that fetch and decode can do. -/
theorem fetchDecode_cases (s : State) :
    (s.imem.length ≤ s.pc.toNat ∧ fetchDecode s = .error .fetchOutOfRange) ∨
    (∃ e d, s.imem[s.pc.toNat]? = some e ∧ decode s.opcodeMap e = .error d ∧
      fetchDecode s = .error (decodeReason d)) ∨
    (∃ e i, s.imem[s.pc.toNat]? = some e ∧ decode s.opcodeMap e = .ok i ∧ fetchDecode s = .ok i) := by
  cases he : s.imem[s.pc.toNat]? with
  | none => exact .inl ⟨List.getElem?_eq_none_iff.mp he, by simp [fetchDecode, fetch, he]⟩
  | some e =>
    cases hd : decode s.opcodeMap e with
    | error d => exact .inr (.inl ⟨e, d, rfl, hd, by simp [fetchDecode, fetch, he, hd]⟩)
    | ok i => exact .inr (.inr ⟨e, i, rfl, hd, by simp [fetchDecode, fetch, he, hd]⟩)

/-- Fetch and decode depend on the image, the opcode map and the pc alone. -/
theorem fetchDecode_congr (s t : State) (hi : t.imem = s.imem) (hm : t.opcodeMap = s.opcodeMap)
    (hp : t.pc = s.pc) : fetchDecode t = fetchDecode s := by
  simp [fetchDecode, fetch, hi, hm, hp]

/-- A lengthened or changed store holds the entry where it was put. -/
theorem placeEntry_getElem? (store : List Entry) (k : Nat) (e : Entry) :
    (placeEntry store k e)[k]? = some e := by
  induction k generalizing store with
  | zero => cases store <;> rfl
  | succ n ih => cases store <;> simpa [placeEntry] using ih _

end Sys2Proof.Machine
end

