-- ==== Sys2Proof/Laws/Exec.lean ====
section
/-! SUPPORT. What one instruction and one step can do, said once: invariants are derived from
`exec_cases` and `step_cases`, not from unfolding. -/

namespace Sys2Proof.Machine

/-- The own effect of an instruction, before it retires with a signal: at most one of a register, a
memory cell, the pc and the flag is written (R174). -/
inductive Effect (s : State) (i : Instr) : Signal → State → Prop where
  | register (d : RegIdx) (v : Byte) (named : d ∈ i.registers) : Effect s i .none (s.setReg d v)
  | sum (d : RegIdx) (v : Byte) (named : d ∈ i.registers)
      (adds : i.mnemonic = .add ∨ i.mnemonic = .addi) : Effect s i .overflow (s.setReg d v)
  | store (a r : RegIdx) (stores : i = .str a r) :
      Effect s i .none (s.setMem (s.mem.write (effectiveAddress s r) (s.reg a)))
  | notTaken (tests : i.mnemonic = .bez ∨ i.mnemonic = .bnz) : Effect s i .none s
  | taken (rank : OpField) (branches : i.mnemonic.operandClass = .branch) :
      Effect s i .branch (s.setPc (branchTarget s rank))
  | clear (clears : i = .cov) : Effect s i .none (s.setOvf false)

/-- Every way an instruction ends, in the order of R160. -/
inductive Ended (s : State) (i : Instr) (t : State) : Prop where
  | badIndex (unfit : ¬ i.FitsRegisters s.nreg) (is : t = s.raiseFault .registerIndexOutOfBounds)
  | underflow (fits : i.FitsRegisters s.nreg) (subtracts : i.mnemonic = .sub ∨ i.mnemonic = .subi)
      (is : t = s.raiseFault .subtractionUnderflow)
  | badShift (fits : i.FitsRegisters s.nreg)
      (shifts : (i.mnemonic = .lslr ∨ i.mnemonic = .lsrr) ∨ ¬ i.WellFormed)
      (is : t = s.raiseFault .shiftOutOfRange)
  | halted (halts : i = .halt) (is : t = s.halt)
  | pcOverflow (fits : i.FitsRegisters s.nreg) (sig : Signal) (u : State) (effect : Effect s i sig u)
      (noBranch : sig ≠ .branch) (top : s.pc = 255#8) (is : t = u.raiseFault .pcOverflow)
  | wentOn (fits : i.FitsRegisters s.nreg) (sig : Signal) (u : State) (effect : Effect s i sig u)
      (noBranch : sig ≠ .branch) (below : s.pc ≠ 255#8)
      (is : t = ((u.setPc (s.pc + 1#8)).latchOverflow sig).emitTrace)
  | branched (fits : i.FitsRegisters s.nreg) (u : State) (effect : Effect s i .branch u)
      (is : t = u.emitTrace)

/-- An effect other than a taken branch leaves the pc. -/
theorem Effect.pc_eq {s u : State} {i : Instr} {sig : Signal} (h : Effect s i sig u)
    (hb : sig ≠ .branch) : u.pc = s.pc := by
  cases h <;> simp_all

/-- Retiring an effect ends the instruction. -/
theorem Ended.retire {s u : State} {i : Instr} {sig : Signal} (fits : i.FitsRegisters s.nreg)
    (h : Effect s i sig u) : ∃ t, retire sig u = .next t ∧ Ended s i t := by
  rcases retire_cases sig u with ⟨hb, hp, hr⟩ | ⟨hb, hp, hr⟩ | ⟨rfl, hr⟩
  · exact ⟨_, hr, .pcOverflow fits sig u h hb (h.pc_eq hb ▸ hp) rfl⟩
  · exact ⟨_, hr, .wentOn fits sig u h hb (h.pc_eq hb ▸ hp) (by rw [h.pc_eq hb])⟩
  · exact ⟨_, hr, .branched fits u h rfl⟩

/-- An index check before an ending is an ending. -/
theorem Ended.check {s : State} {i : Instr} {e : Result}
    (h : i.FitsRegisters s.nreg → ∃ t, e = .next t ∧ Ended s i t) :
    ∃ t, checkRegs i.registers s e = .next t ∧ Ended s i t := by
  by_cases hf : i.FitsRegisters s.nreg
  · rw [checkRegs_pass _ _ _ hf]
    exact h hf
  · rw [checkRegs_fail _ _ _ hf]
    exact ⟨_, rfl, .badIndex hf rfl⟩

/-- An index check and the writing of an ALU result end the instruction, for an operation whose faults
and overflow are the instruction's. -/
theorem Ended.alu {s : State} (i : Instr) (d : RegIdx) (op : AluOp) (p q : Byte)
    (named : d ∈ i.registers := by simp [Instr.registers])
    (adds : op = .add → i.mnemonic = .add ∨ i.mnemonic = .addi := by simp [Instr.mnemonic])
    (subtracts : op = .sub → i.mnemonic = .sub ∨ i.mnemonic = .subi := by simp [Instr.mnemonic])
    (shifts : (op = .shl ∨ op = .shr) → 7 < q.toNat →
      (i.mnemonic = .lslr ∨ i.mnemonic = .lsrr) ∨ ¬ i.WellFormed := by simp) :
    ∃ t, checkRegs i.registers s (writeAlu d (Machine.alu op p q) s) = .next t ∧ Ended s i t := by
  refine Ended.check fun fits => ?_
  rcases writeAlu_cases d (Machine.alu op p q) s with ⟨r, ho, hw⟩ | ⟨o, ho, hw⟩
  · rcases alu_error op p q r ho with ⟨h, rfl, -⟩ | ⟨h, rfl, hq⟩
    · exact ⟨_, hw, .underflow fits (subtracts h) rfl⟩
    · exact ⟨_, hw, .badShift fits (shifts h hq) rfl⟩
  · rw [hw]
    cases hv : o.ovfOut with
    | false => exact Ended.retire fits (.register d o.result named)
    | true => exact Ended.retire fits (.sum d o.result named (adds ((alu_ovfOut op p q o ho).mp hv).1))

/-- A branch ends the instruction. -/
theorem Ended.branchIf {s : State} {i : Instr} (b : Bool) (rank : OpField)
    (fits : i.FitsRegisters s.nreg) (branches : i.mnemonic.operandClass = .branch)
    (tests : b = false → i.mnemonic = .bez ∨ i.mnemonic = .bnz) :
    ∃ t, branchIf b rank s = .next t ∧ Ended s i t := by
  cases b with
  | true => exact Ended.retire fits (.taken rank branches)
  | false => exact Ended.retire fits (.notTaken (tests rfl))

/-- An immediate widened to 8 bits is the same number. -/
@[simp] theorem immediate_toNat (f : OpField) : (immediate f).toNat = f.toNat := by
  have := f.isLt
  simp only [immediate, BitVec.toNat_setWidth]
  omega

/-- Every instruction ends with a next state, in one of the ways of `Ended`. -/
theorem exec_cases (i : Instr) (s : State) : ∃ t, exec i s = .next t ∧ Ended s i t := by
  cases i with
  | ass a imm => exact Ended.alu (.ass a imm) a .pass _ _
  | movf a r => exact Ended.alu (.movf a r) a .pass _ _
  | movt a r => exact Ended.alu (.movt a r) r .pass _ _
  | add a r => exact Ended.alu (.add a r) a .add _ _
  | addi a imm => exact Ended.alu (.addi a imm) a .add _ _
  | sub a r => exact Ended.alu (.sub a r) a .sub _ _
  | subi a imm => exact Ended.alu (.subi a imm) a .sub _ _
  | not => exact Ended.alu .not 0#4 .not _ _
  | and a r => exact Ended.alu (.and a r) a .and _ _
  | or a r => exact Ended.alu (.or a r) a .or _ _
  | gt a r => exact Ended.alu (.gt a r) a .gt _ _
  | lt a r => exact Ended.alu (.lt a r) a .lt _ _
  | ge a r => exact Ended.alu (.ge a r) a .ge _ _
  | le a r => exact Ended.alu (.le a r) a .le _ _
  | eq a r => exact Ended.alu (.eq a r) a .eq _ _
  | load a r => exact Ended.alu (.load a r) a .pass _ _
  | str a r => exact Ended.check (i := .str a r) fun fits => Ended.retire fits (.store a r rfl)
  | cfb => exact Ended.alu .cfb 0#4 .bit7 _ _
  | bez a rank => exact Ended.check (i := .bez a rank) fun fits => Ended.branchIf _ rank fits rfl fun _ => .inl rfl
  | bnz a rank => exact Ended.check (i := .bnz a rank) fun fits => Ended.branchIf _ rank fits rfl fun _ => .inr rfl
  | b a rank => exact Ended.branchIf (i := .b a rank) true rank (fun _ h => nomatch h) rfl (by simp)
  | lsl a imm =>
    exact Ended.alu (.lsl a imm) a .shl _ _
      (shifts := fun _ h => .inr (by simpa [Instr.WellFormed, Instr.mnemonic, Instr.operandField] using h))
  | lsr a imm =>
    exact Ended.alu (.lsr a imm) a .shr _ _
      (shifts := fun _ h => .inr (by simpa [Instr.WellFormed, Instr.mnemonic, Instr.operandField] using h))
  | lslr a r =>
    exact Ended.alu (.lslr a r) a .shl _ _ (shifts := fun _ _ => .inl (.inl rfl))
  | lsrr a r =>
    exact Ended.alu (.lsrr a r) a .shr _ _ (shifts := fun _ _ => .inl (.inr rfl))
  | halt => exact ⟨_, rfl, .halted rfl rfl⟩
  | gov => exact Ended.alu .gov 0#4 .pass _ _
  | cov => exact Ended.retire (i := .cov) (fun _ h => nomatch h) (.clear rfl)

/-- A step that answers a next state ran from `Running`, and either took a fetch or decode fault with
all else unchanged or ended the decoded instruction. -/
theorem step_cases (s t : State) (h : step s = .next t) :
    s.status = .running ∧
      ((∃ r, fetchDecode s = .error r ∧ t = s.raiseFault r) ∨
       (∃ i, fetchDecode s = .ok i ∧ exec i s = .next t ∧ Ended s i t)) := by
  cases hs : s.status with
  | halted => simp [step, hs] at h
  | faulted r => simp [step, hs] at h
  | running =>
    refine ⟨rfl, ?_⟩
    cases hd : fetchDecode s with
    | error r =>
      simp only [step, hs, stepRunning, hd, Host.Outcome.next.injEq] at h
      exact .inl ⟨r, rfl, h.symm⟩
    | ok i =>
      simp only [step, hs, stepRunning, hd] at h
      obtain ⟨u, hu, hend⟩ := exec_cases i s
      cases hu.symm.trans h
      exact .inr ⟨i, rfl, h, hend⟩

end Sys2Proof.Machine
end

