-- ==== Sys2Proof/Laws/Frames.lean ====
section
/-! SUPPORT. What retiring keeps, and the completion of an instruction that writes one register. -/

namespace Sys2Proof.Machine

/-- Trace events depend on the annotations, the pc and the registers alone. -/
theorem State.traceEvents_congr (s t : State) (hd : t.dbg = s.dbg) (hp : t.pc = s.pc)
    (hr : t.regs = s.regs) : t.traceEvents = s.traceEvents := by
  simp [State.traceEvents, State.acc, hd, hp, State.reg_congr s t 0#4 hr]

/-- From a legal image, fetch and decode give the fetch fault or an instruction whose registers exist. -/
theorem LegalImage.fetchDecode {s : State} (h : LegalImage s) :
    Machine.fetchDecode s = .error .fetchOutOfRange ∨
      ∃ i, Machine.fetchDecode s = .ok i ∧ i.FitsRegisters s.nreg := by
  rcases fetchDecode_cases s with ⟨_, h'⟩ | ⟨e, d, he, hd, _⟩ | ⟨e, i, he, hd, h'⟩
  · exact .inl h'
  · obtain ⟨i, hi, _⟩ := h e (List.mem_of_getElem? he)
    rw [hi] at hd
    cases hd
  · obtain ⟨j, hj, hf⟩ := h e (List.mem_of_getElem? he)
    rw [hj] at hd
    cases hd
    exact .inr ⟨i, h', hf⟩

/-- The state after retiring below pc 255 without a branch, from the state the effect left. -/
abbrev retired (sig : Signal) (u : State) : State :=
  ((u.setPc (u.pc + 1#8)).latchOverflow sig).emitTrace

/-- Appending to the trace leaves what trace events are made of. -/
theorem emitTrace_events (s : State) : s.emitTrace.traceEvents = s.traceEvents :=
  State.traceEvents_congr _ _ rfl rfl rfl

/-- An instruction whose effect leaves status, pc and trace, retired below 255, goes on by 1. -/
theorem wentOn_retired (sig : Signal) (s u : State) (hp : u.pc = s.pc) (hs : u.status = s.status)
    (ht : u.trace = s.trace) (h : s.pc ≠ 255#8) : WentOn s (retired sig u) where
  status := by simp [hs]
  pc := by simpa [hp] using pc_succ_toNat s.pc h
  traced := by rw [Traced, emitTrace_events]; simp [ht]

/-- A state whose image and parameters are those of `s` has the same program. -/
theorem sameProgram_of_eq {s t : State} (h1 : t.imem = s.imem) (h2 : t.btt = s.btt)
    (h3 : t.nlab = s.nlab) (h4 : t.dbg = s.dbg) (h5 : t.opcodeMap = s.opcodeMap)
    (h6 : t.memMin = s.memMin) (h7 : t.memMax = s.memMax) (h8 : t.regs.length = s.regs.length) :
    SameProgram s t :=
  ⟨h1, h2, h3, h4, h5, h6, h7, h8⟩

/-- An instruction that writes `v` to an existing register below pc 255 completes with it. -/
theorem completesWith_of_write (i : Instr) (s : State) (d : RegIdx) (v : Byte) (sig : Signal)
    (hb : sig ≠ .branch) (hd : d.toNat < s.nreg) (h : s.pc ≠ 255#8)
    (he : exec i s = retire sig (s.setReg d v)) :
    CompletesWith i s d v (s.ovf || decide (sig = .overflow)) := by
  refine ⟨retired sig (s.setReg d v), he.trans (retire_next sig _ hb h), ?_, ?_, ?_, ?_, ?_, ?_⟩
  · exact wentOn_retired sig s _ rfl rfl rfl h
  · exact sameProgram_of_eq (by simp) (by simp) (by simp) (by simp) (by simp) (by simp) (by simp)
      (by simp)
  · intro addr
    simp
  · intro j hj
    exact (State.reg?_congr _ _ j (by simp)).trans (s.reg?_setReg_other d j v hj)
  · exact (State.reg?_congr _ _ d (by simp)).trans (s.reg?_setReg_same d v hd)
  · simp

/-- An existing register has a value, and reads as it. -/
theorem State.lt_nreg_of_reg? {s : State} {j : RegIdx} {v : Byte} (h : s.reg? j = some v) :
    j.toNat < s.nreg := (List.getElem?_eq_some_iff.mp h).1

/-- The ALU form of completion: an index check that passes, then an ALU result written. -/
theorem completesWith_of_alu (i : Instr) (js : List RegIdx) (s : State) (d : RegIdx) (o : AluOut)
    (out : Except FaultReason AluOut) (hjs : ∀ j ∈ js, j.toNat < s.nreg) (hd : d.toNat < s.nreg)
    (h : s.pc ≠ 255#8) (ho : out = .ok o) (he : exec i s = checkRegs js s (writeAlu d out s)) :
    CompletesWith i s d o.result (s.ovf || o.ovfOut) := by
  have key := completesWith_of_write i s d o.result (signalOf o.ovfOut) (signalOf_ne_branch _) hd h
    (by rw [he, checkRegs_pass js s _ hjs, ho]; rfl)
  have : decide (signalOf o.ovfOut = .overflow) = o.ovfOut := by cases o.ovfOut <;> rfl
  rwa [this] at key

/-- A taken branch goes to its target. -/
theorem jumpsTo_of_taken (i : Instr) (s : State) (rank : OpField)
    (he : exec i s = branchIf true rank s) : JumpsTo i s s.btt[rank.toNat] := by
  refine ⟨(s.setPc (branchTarget s rank)).emitTrace, he, ⟨rfl, rfl, ?_⟩, ?_, ?_, ?_, rfl⟩
  · rw [Traced, emitTrace_events]; simp
  · exact sameProgram_of_eq rfl rfl rfl rfl rfl rfl rfl rfl
  · exact fun _ => rfl
  · exact fun _ => rfl

/-- A branch not taken below pc 255 goes on by 1. -/
theorem jumpsTo_of_notTaken (i : Instr) (s : State) (rank : OpField) (h : s.pc ≠ 255#8)
    (he : exec i s = branchIf false rank s) : JumpsTo i s (BitVec.ofNat 8 (s.pc.toNat + 1)) := by
  have hpc : s.pc + 1#8 = BitVec.ofNat 8 (s.pc.toNat + 1) := by bv_omega
  refine ⟨retired .none s, he.trans (retire_next .none s (by simp) h), ⟨rfl, hpc, ?_⟩, ?_, ?_, ?_,
    rfl⟩
  · rw [Traced, emitTrace_events]; rfl
  · exact sameProgram_of_eq rfl rfl rfl rfl rfl rfl rfl rfl
  · exact fun _ => rfl
  · exact fun _ => rfl

end Sys2Proof.Machine
end

