-- ==== Sys2Proof/Laws/Loader.lean ====
section
/-! SUPPORT. What the loader's operations can do: UTF-8 decoding, the reading of a line, and the image of
a source. -/

namespace Sys2Proof.Machine

/-- A number is a code point exactly if a character has it. -/
theorem codePoint?_eq_some_iff (n : Nat) (c : Char) : codePoint? n = some c ↔ c.val.toNat = n := by
  constructor
  · intro h
    unfold codePoint? at h
    split at h
    · next hv =>
      cases h
      exact (Char.toNat_ofNat n).trans (by simp [hv])
    · cases h
  · rintro rfl
    have hv : Nat.isValidChar c.val.toNat := c.valid
    simp only [codePoint?, hv, if_true]
    exact congrArg some (Char.ofNat_toNat c)

/-- What decoding can do inside a code point: the next byte continues it, and it ends here or goes on. -/
theorem utf8From_succ_cases {k acc least : Nat} {src : List Byte} {text : Text}
    (h : utf8From (k + 1) acc least src = some text) :
    ∃ b rest, src = b :: rest ∧ 128 ≤ b.toNat ∧ b.toNat < 192 ∧
      (k = 0 → least ≤ acc * 64 + (b.toNat - 128) ∧
        ∃ c t, codePoint? (acc * 64 + (b.toNat - 128)) = some c ∧ utf8From 0 0 0 rest = some t ∧
          text = c :: t) ∧
      (k ≠ 0 → utf8From k (acc * 64 + (b.toNat - 128)) least rest = some text) := by
  cases src with
  | nil => simp [utf8From] at h
  | cons b rest =>
    rw [utf8From] at h
    by_cases hr : 128 ≤ b.toNat ∧ b.toNat < 192
    · simp only [utf8Continuation?, if_pos hr] at h
      refine ⟨b, rest, rfl, hr.1, hr.2, fun hk => ?_, fun hk => by rwa [if_neg hk] at h⟩
      rw [if_pos hk] at h
      split at h
      · cases h
      · next hl =>
        obtain ⟨c, hc, h⟩ := Option.bind_eq_some_iff.mp h
        obtain ⟨t, ht, h⟩ := Option.map_eq_some_iff.mp h
        exact ⟨Nat.le_of_not_lt hl, c, t, hc, ht, h.symm⟩
    · simp only [utf8Continuation?, if_neg hr] at h
      cases h

/-- A blank line adds nothing (R105). -/
theorem readLine_blank (names : List Text) (l : Loaded) : readLine names l [] = .ok l := rfl

/-- A comment line adds nothing (R105). -/
theorem readLine_comment (names : List Text) (l : Loaded) (t : Text) (rest : List Text)
    (h : opensComment t = true) : readLine names l (t :: rest) = .ok l := by
  simp [readLine, h]

/-- On a line that is no comment, a later token that opens like one is refused, whatever the line is
(R105, D24). -/
theorem readLine_extraComment (names : List Text) (l : Loaded) (t u : Text) (rest : List Text)
    (h : opensComment t = false) (hu : u ∈ rest) (h' : opensComment u = true) :
    readLine names l (t :: rest) = .error .operandCount := by
  have : rest.any opensComment = true := List.any_eq_true.mpr ⟨u, hu, h'⟩
  simp [readLine, h, this]

/-- A source has an image exactly if it is UTF-8 and its text has that image (R104). -/
theorem assemble_eq_ok_iff (m : OpcodeMap) (names : List Text) (src : List Byte) (p : Image) :
    assemble m names src = .ok p ↔
      ∃ text, utf8Decode src = some text ∧ assembleText m names text = .ok p := by
  unfold assemble
  cases utf8Decode src <;> simp

end Sys2Proof.Machine
end

