-- ==== Sys2Proof/Laws/PerInstr.lean ====
section
/-! SUPPORT. Statements made per instruction, one lemma per constructor. -/

namespace Sys2Proof

/-- An instruction's operand fields, decoded under its mnemonic, give the instruction back (R91, R99). -/
def Laws.OperandsDecode.Statement (i : Instr) : Prop :=
  i.WellFormed → decodeOperands i.mnemonic i.firstOperand i.operandField = .ok i

theorem Laws.OperandsDecode.ass (a : RegIdx) (imm : OpField) : Laws.OperandsDecode.Statement (.ass a imm) :=
  fun _ => rfl

theorem Laws.OperandsDecode.movf (a r : RegIdx) : Laws.OperandsDecode.Statement (.movf a r) :=
  fun _ => rfl

theorem Laws.OperandsDecode.movt (a r : RegIdx) : Laws.OperandsDecode.Statement (.movt a r) :=
  fun _ => rfl

theorem Laws.OperandsDecode.add (a r : RegIdx) : Laws.OperandsDecode.Statement (.add a r) :=
  fun _ => rfl

theorem Laws.OperandsDecode.addi (a : RegIdx) (imm : OpField) : Laws.OperandsDecode.Statement (.addi a imm) :=
  fun _ => rfl

theorem Laws.OperandsDecode.sub (a r : RegIdx) : Laws.OperandsDecode.Statement (.sub a r) :=
  fun _ => rfl

theorem Laws.OperandsDecode.subi (a : RegIdx) (imm : OpField) : Laws.OperandsDecode.Statement (.subi a imm) :=
  fun _ => rfl

theorem Laws.OperandsDecode.not : Laws.OperandsDecode.Statement .not :=
  fun _ => rfl

theorem Laws.OperandsDecode.and (a r : RegIdx) : Laws.OperandsDecode.Statement (.and a r) :=
  fun _ => rfl

theorem Laws.OperandsDecode.or (a r : RegIdx) : Laws.OperandsDecode.Statement (.or a r) :=
  fun _ => rfl

theorem Laws.OperandsDecode.gt (a r : RegIdx) : Laws.OperandsDecode.Statement (.gt a r) :=
  fun _ => rfl

theorem Laws.OperandsDecode.lt (a r : RegIdx) : Laws.OperandsDecode.Statement (.lt a r) :=
  fun _ => rfl

theorem Laws.OperandsDecode.ge (a r : RegIdx) : Laws.OperandsDecode.Statement (.ge a r) :=
  fun _ => rfl

theorem Laws.OperandsDecode.le (a r : RegIdx) : Laws.OperandsDecode.Statement (.le a r) :=
  fun _ => rfl

theorem Laws.OperandsDecode.eq (a r : RegIdx) : Laws.OperandsDecode.Statement (.eq a r) :=
  fun _ => rfl

theorem Laws.OperandsDecode.load (a r : RegIdx) : Laws.OperandsDecode.Statement (.load a r) :=
  fun _ => rfl

theorem Laws.OperandsDecode.str (a r : RegIdx) : Laws.OperandsDecode.Statement (.str a r) :=
  fun _ => rfl

theorem Laws.OperandsDecode.cfb : Laws.OperandsDecode.Statement .cfb :=
  fun _ => rfl

theorem Laws.OperandsDecode.bez (a : RegIdx) (rank : OpField) : Laws.OperandsDecode.Statement (.bez a rank) :=
  fun _ => rfl

theorem Laws.OperandsDecode.bnz (a : RegIdx) (rank : OpField) : Laws.OperandsDecode.Statement (.bnz a rank) :=
  fun _ => rfl

theorem Laws.OperandsDecode.b (a : RegIdx) (rank : OpField) : Laws.OperandsDecode.Statement (.b a rank) :=
  fun _ => rfl

theorem Laws.OperandsDecode.lsl (a : RegIdx) (imm : OpField) : Laws.OperandsDecode.Statement (.lsl a imm) := by
  intro h
  simp_all [Instr.WellFormed, Instr.mnemonic, Instr.operandField, Instr.firstOperand, decodeOperands,
    decodeShift]

theorem Laws.OperandsDecode.lsr (a : RegIdx) (imm : OpField) : Laws.OperandsDecode.Statement (.lsr a imm) := by
  intro h
  simp_all [Instr.WellFormed, Instr.mnemonic, Instr.operandField, Instr.firstOperand, decodeOperands,
    decodeShift]

theorem Laws.OperandsDecode.lslr (a r : RegIdx) : Laws.OperandsDecode.Statement (.lslr a r) :=
  fun _ => rfl

theorem Laws.OperandsDecode.lsrr (a r : RegIdx) : Laws.OperandsDecode.Statement (.lsrr a r) :=
  fun _ => rfl

theorem Laws.OperandsDecode.halt : Laws.OperandsDecode.Statement .halt :=
  fun _ => rfl

theorem Laws.OperandsDecode.gov : Laws.OperandsDecode.Statement .gov :=
  fun _ => rfl

theorem Laws.OperandsDecode.cov : Laws.OperandsDecode.Statement .cov :=
  fun _ => rfl

end Sys2Proof
end

