-- ==== Sys2Proof/Tests/Slice0.lean ====
section
/-! SUPPORT. The model's own tests: ill-formed terms refused, words written out from the spec's encodings,
single steps on the spec's vectors (95_test_vectors.md), and a witness for the hypotheses of each
statement. -/

open Sys2Proof Sys2Proof.Machine

namespace Sys2Proof.Tests

/-! ### Helpers -/

/-- The next state of a result, if it has one. -/
def nextOf (r : Result) : Option State :=
  match r with
  | .next t => some t
  | .fault _ => none
  | .refused _ => none

/-- Registers, pc, flag and status after a result: what the spec's vectors list. -/
def seen (r : Result) : Option (List Byte × Byte × Bool × Status) :=
  (nextOf r).map fun t => (t.regs, t.pc, t.ovf, t.status)

/-- The start state of the spec's vectors: `pc = 10`, the registers listed, and one entry at the pc. -/
def at10 (regs : List Byte) (ovf : Bool) (e : Entry) : State :=
  { State.reset with regs := regs, pc := 10, ovf := ovf, imem := placeEntry [] 10 e }

/-- The same with the branch table of the spec's section 2.5. -/
def branching (regs : List Byte) (e : Entry) : State :=
  { at10 regs false e with btt := #v[7, 3, 0, 0, 0, 0, 0, 0, 0, 0, 0, 0, 0, 0, 0, 0], nlab := 2 }

/-- The same at pc 255 of a full program. -/
def atTop (regs : List Byte) (e : Entry) : State :=
  { branching regs e with pc := 255, imem := placeEntry [] 255 e }

/-! ### Well-formedness refuses -/

theorem test_lsl_8_illFormed : ¬ (Instr.lsl 0 8).WellFormed := by decide
theorem test_lsr_15_illFormed : ¬ (Instr.lsr 0 15).WellFormed := by decide
theorem test_lsl_7_wellFormed : (Instr.lsl 0 7).WellFormed := by decide
theorem test_subi_15_wellFormed : (Instr.subi 0 15).WellFormed := by decide
theorem test_map_not_injective : ¬ ({ OpcodeMap.default with cov := 1 } : OpcodeMap).Valid := by decide
theorem test_map_zero_value : ¬ ({ OpcodeMap.default with ass := 0 } : OpcodeMap).Valid := by decide
theorem test_map_value_29 : ¬ ({ OpcodeMap.default with ass := 29 } : OpcodeMap).Valid := by decide
theorem test_index_unfit : ¬ (Instr.movt 0 3).FitsRegisters 2 := by decide
theorem test_b_names_no_register : (Instr.b 15 0).FitsRegisters 1 := by decide
theorem test_memory_default_listed : ¬ Memory.wf [(1, 0)] := by decide
theorem test_memory_unsorted : ¬ Memory.wf [(2, 1), (1, 1)] := by decide
theorem test_memory_too_high : ¬ Memory.wf [(256, 1)] := by decide
theorem test_driver_no_names : ¬ Driver.NamesOk ⟨[], [], 0, 0⟩ := by decide
theorem test_driver_duplicate_names : ¬ Driver.NamesOk ⟨[['A'], ['A']], [], 0, 0⟩ := by decide
theorem test_driver_preload_value : ¬ Driver.PreloadOk ⟨[['A']], [(0, 256)], 0, 0⟩ := by decide
theorem test_driver_preload_twice : ¬ Driver.PreloadOk ⟨[['A']], [(0, 1), (0, 2)], 0, 0⟩ := by decide
theorem test_driver_window : ¬ Driver.WindowOk ⟨[['A']], [], 5, 4⟩ := by decide

/-! ### Decoding: one word of every instruction, bit by bit from its Encoding line -/

theorem test_decode_classN :
    [0b010000000, 0b100100000, 0b110100000, 0b110110000, 0b111000000].map
      (fun w => decode .default ⟨0, w⟩) =
    [.ok .not, .ok .cfb, .ok .halt, .ok .gov, .ok .cov] := by decide

theorem test_decode_classI :
    [0b000010101, 0b001010011, 0b001110001, 0b101100001, 0b101110111].map
      (fun w => decode .default ⟨1, w⟩) =
    [.ok (.ass 1 5), .ok (.addi 1 3), .ok (.subi 1 1), .ok (.lsl 1 1), .ok (.lsr 1 7)] := by decide

theorem test_decode_classR :
    [0b000100010, 0b000110010, 0b001000010, 0b001100001, 0b010010001, 0b010100001].map
      (fun w => decode .default ⟨3, w⟩) =
    [.ok (.movf 3 2), .ok (.movt 3 2), .ok (.add 3 2), .ok (.sub 3 1), .ok (.and 3 1),
      .ok (.or 3 1)] := by decide

theorem test_decode_comparisons_and_shifts :
    [0b010110001, 0b011000001, 0b011010001, 0b011100001, 0b011110001, 0b110000001, 0b110010001].map
      (fun w => decode .default ⟨0, w⟩) =
    [.ok (.gt 0 1), .ok (.lt 0 1), .ok (.ge 0 1), .ok (.le 0 1), .ok (.eq 0 1), .ok (.lslr 0 1),
      .ok (.lsrr 0 1)] := by decide

theorem test_decode_classM_and_classB :
    [0b100000001, 0b100010011, 0b100110010, 0b101000000, 0b101010001].map
      (fun w => decode .default ⟨2, w⟩) =
    [.ok (.load 2 1), .ok (.str 2 3), .ok (.bez 2 2), .ok (.bnz 2 0), .ok (.b 2 1)] := by decide

/-- X1 to X3, L3, L4, H4, H7, Y3 of the spec's vectors. -/
theorem test_decode_rejects :
    [⟨0, 0b000000000⟩, ⟨0, 0b111010000⟩, ⟨0, 0b111111111⟩, ⟨0, 0b010000001⟩, ⟨1, 0b010000000⟩,
      ⟨0, 0b101101000⟩, ⟨0, 0b101111111⟩, ⟨0, 0b110100011⟩].map (decode .default) =
    [.error .illegalOpcode, .error .illegalOpcode, .error .illegalOpcode,
      .error .reservedOperandField, .error .reservedOperandField, .error .shiftOutOfRange,
      .error .shiftOutOfRange, .error .reservedOperandField] := by decide

/-- The map is a parameter: with HALT and ADD exchanged the same word decodes to the other. -/
theorem test_decode_other_map :
    decode { OpcodeMap.default with halt := 4, add := 26 } ⟨0, 0b001000000⟩ = .ok .halt := by decide

theorem test_encode_load : encode .default (.load 2 1) = ⟨2, 0b100000001⟩ := by decide
theorem test_word_text :
    wordText 0x151 = ['1', '0', '1', '0', '1', '0', '0', '0', '1'] := by decide
theorem test_table_word : decodeTableWord 16 0x1B0 = some .gov := by decide
theorem test_table_word_refused : decodeTableWord 16 0x1B1 = none := by decide
theorem test_fetch_word_runs :
    seen (step (State.reset.withFetchWord 16 0x015)) =
      some ([5, 0, 0, 0, 0, 0, 0, 0, 0, 0, 0, 0, 0, 0, 0, 0], 1, false, .running) := by decide
theorem test_reset_fetch_faults :
    (nextOf (step State.reset)).map State.status = some (.faulted .fetchOutOfRange) := by decide
theorem test_fault_codes :
    [FaultReason.fetchOutOfRange, .pcOverflow, .subtractionUnderflow, .shiftOutOfRange,
      .registerIndexOutOfBounds, .memoryIndexOutOfBounds, .illegalOpcode,
      .reservedOperandField].map FaultReason.code = [1, 2, 3, 4, 5, 6, 7, 8] := by decide

/-! ### Single steps on the spec's vectors (95_test_vectors.md section 2) -/

theorem test_M2_ass : seen (step (at10 [0, 0] false ⟨1, 0b000011111⟩)) =
    some ([0, 15], 11, false, .running) := by decide
theorem test_M3_ass_bad_index : seen (step (at10 [0, 0] false ⟨2, 0b000010001⟩)) =
    some ([0, 0], 10, false, .faulted .registerIndexOutOfBounds) := by decide
theorem test_M4_movf : seen (step (at10 [1, 200] false ⟨0, 0b000100001⟩)) =
    some ([200, 200], 11, false, .running) := by decide
theorem test_M6_movt : seen (step (at10 [1, 200] false ⟨0, 0b000110001⟩)) =
    some ([1, 1], 11, false, .running) := by decide
theorem test_M7_movt_bad_index : seen (step (at10 [1, 2] false ⟨0, 0b000110011⟩)) =
    some ([1, 2], 10, false, .faulted .registerIndexOutOfBounds) := by decide
theorem test_A2_add_wraps : seen (step (at10 [200, 56] false ⟨0, 0b001000001⟩)) =
    some ([0, 56], 11, true, .running) := by decide
theorem test_A17_add_at_top : seen (step (atTop [200, 56] ⟨0, 0b001000001⟩)) =
    some ([0, 56], 255, false, .faulted .pcOverflow) := by decide
theorem test_A8_addi : seen (step (at10 [240] false ⟨0, 0b001011111⟩)) =
    some ([255], 11, false, .running) := by decide
theorem test_A9_addi_wraps : seen (step (at10 [255] false ⟨0, 0b001011111⟩)) =
    some ([14], 11, true, .running) := by decide
theorem test_A10_sub : seen (step (at10 [9, 4] true ⟨0, 0b001100001⟩)) =
    some ([5, 4], 11, true, .running) := by decide
theorem test_A11_sub_underflow : seen (step (at10 [4, 9] false ⟨0, 0b001100001⟩)) =
    some ([4, 9], 10, false, .faulted .subtractionUnderflow) := by decide
theorem test_A14_subi : seen (step (at10 [15] false ⟨0, 0b001111111⟩)) =
    some ([0], 11, false, .running) := by decide
theorem test_A15_subi_underflow : seen (step (at10 [14] false ⟨0, 0b001111111⟩)) =
    some ([14], 10, false, .faulted .subtractionUnderflow) := by decide
theorem test_L2_not : seen (step (at10 [0xA5] false ⟨0, 0b010000000⟩)) =
    some ([0x5A], 11, false, .running) := by decide
theorem test_L5_and : seen (step (at10 [0xCA, 0x0F] false ⟨0, 0b010010001⟩)) =
    some ([0x0A, 0x0F], 11, false, .running) := by decide
theorem test_L7_or : seen (step (at10 [0xCA, 0x0F] false ⟨0, 0b010100001⟩)) =
    some ([0xCF, 0x0F], 11, false, .running) := by decide
theorem test_L8_gt_unsigned : seen (step (at10 [255, 0] false ⟨0, 0b010110001⟩)) =
    some ([1, 0], 11, false, .running) := by decide
theorem test_L21_gt_first_operand : seen (step (at10 [3, 4] false ⟨1, 0b010110000⟩)) =
    some ([3, 1], 11, false, .running) := by decide
theorem test_L10_lt : seen (step (at10 [0, 255] false ⟨0, 0b011000001⟩)) =
    some ([1, 255], 11, false, .running) := by decide
theorem test_L11_lt_same : seen (step (at10 [5] false ⟨0, 0b011000000⟩)) =
    some ([0], 11, false, .running) := by decide
theorem test_L12_ge : seen (step (at10 [100, 100] false ⟨0, 0b011010001⟩)) =
    some ([1, 100], 11, false, .running) := by decide
theorem test_L13_ge_false : seen (step (at10 [99, 100] false ⟨0, 0b011010001⟩)) =
    some ([0, 100], 11, false, .running) := by decide
theorem test_L14_le_false : seen (step (at10 [101, 100] false ⟨0, 0b011100001⟩)) =
    some ([0, 100], 11, false, .running) := by decide
theorem test_L15_le_same : seen (step (at10 [0] false ⟨0, 0b011100000⟩)) =
    some ([1], 11, false, .running) := by decide
theorem test_L16_eq : seen (step (at10 [7, 7] false ⟨0, 0b011110001⟩)) =
    some ([1, 7], 11, false, .running) := by decide
theorem test_L17_eq_false : seen (step (at10 [7, 8] false ⟨0, 0b011110001⟩)) =
    some ([0, 8], 11, false, .running) := by decide
theorem test_L18_cfb_127 : seen (step (at10 [127] false ⟨0, 0b100100000⟩)) =
    some ([0], 11, false, .running) := by decide
theorem test_L19_cfb_128 : seen (step (at10 [128] false ⟨0, 0b100100000⟩)) =
    some ([1], 11, false, .running) := by decide
theorem test_S2_load_same_register :
    seen (step { at10 [0, 5] false ⟨1, 0b100000001⟩ with mem := [(5, 99)] }) =
    some ([0, 99], 11, false, .running) := by decide
theorem test_S3_load_default : seen (step (at10 [0, 255] false ⟨0, 0b100000001⟩)) =
    some ([0, 255], 11, false, .running) := by decide
theorem test_S4_str :
    (nextOf (step (at10 [42, 200] false ⟨0, 0b100010001⟩))).map State.mem = some [(200, 42)] := by
  decide
theorem test_str_zero_unlists :
    (nextOf (step { at10 [0, 5] false ⟨0, 0b100010001⟩ with mem := [(5, 99)] })).map State.mem =
      some [] := by decide
theorem test_B1_bez_taken : seen (step (branching [0] ⟨0, 0b100110000⟩)) =
    some ([0], 7, false, .running) := by decide
theorem test_B10_bez_at_top : seen (step (atTop [1] ⟨0, 0b100110000⟩)) =
    some ([1], 255, false, .faulted .pcOverflow) := by decide
theorem test_B5_bnz_first_operand : seen (step (branching [0, 9] ⟨1, 0b101000001⟩)) =
    some ([0, 9], 3, false, .running) := by decide
theorem test_B4_bnz_not_taken : seen (step (branching [0] ⟨0, 0b101000001⟩)) =
    some ([0], 11, false, .running) := by decide
theorem test_B7_b_padding : seen (step (branching [1] ⟨0, 0b101010101⟩)) =
    some ([1], 0, false, .running) := by decide
theorem test_B11_b_ignores_register : seen (step (branching [1] ⟨15, 0b101010001⟩)) =
    some ([1], 3, false, .running) := by decide
theorem test_H1_lsl : seen (step (at10 [0x81] false ⟨0, 0b101100001⟩)) =
    some ([0x02], 11, false, .running) := by decide
theorem test_H4_lsl_8 : seen (step (at10 [0x81] false ⟨0, 0b101101000⟩)) =
    some ([0x81], 10, false, .faulted .shiftOutOfRange) := by decide
theorem test_H5_lsr : seen (step (at10 [0x81] false ⟨0, 0b101110111⟩)) =
    some ([1], 11, false, .running) := by decide
theorem test_H10_lslr_same : seen (step (at10 [3] false ⟨0, 0b110000000⟩)) =
    some ([24], 11, false, .running) := by decide
theorem test_H9_lslr_8 : seen (step (at10 [5, 8] false ⟨0, 0b110000001⟩)) =
    some ([5, 8], 10, false, .faulted .shiftOutOfRange) := by decide
theorem test_H11_lsrr : seen (step (at10 [0xF0, 4] false ⟨0, 0b110010001⟩)) =
    some ([0x0F, 4], 11, false, .running) := by decide
theorem test_H13_lsrr_255 : seen (step (at10 [1, 255] false ⟨0, 0b110010001⟩)) =
    some ([1, 255], 10, false, .faulted .shiftOutOfRange) := by decide
theorem test_Y2_halt_at_top : seen (step (atTop [1] ⟨0, 0b110100000⟩)) =
    some ([1], 255, false, .halted) := by decide
theorem test_Y4_gov : seen (step (at10 [4] true ⟨0, 0b110110000⟩)) =
    some ([1], 11, true, .running) := by decide
theorem test_Y6_cov : seen (step (at10 [9] true ⟨0, 0b111000000⟩)) =
    some ([9], 11, false, .running) := by decide
theorem test_X6_trace :
    (nextOf (step { at10 [4] true ⟨0, 0b110110000⟩ with dbg := [(11, ['t'])] })).map State.trace =
      some [⟨11, 1, ['t']⟩] := by decide
theorem test_halt_no_trace :
    (nextOf (step { at10 [4] true ⟨0, 0b110100000⟩ with dbg := [(10, ['t'])] })).map State.trace =
      some [] := by decide
theorem test_X7_fetch_first :
    seen (step { at10 [4] true ⟨0, 0⟩ with imem := [] }) =
      some ([4], 10, true, .faulted .fetchOutOfRange) := by decide

/-! ### Loader and boot -/

/-- The bytes of an ASCII text. -/
def ascii (t : Text) : List Byte := t.map fun c => BitVec.ofNat 8 c.toNat

/-- Code points of one, two, three and four bytes: the bytes are those of U+0041, U+00E9, U+20AC and
U+1F600 written out in UTF-8 by hand. -/
theorem test_utf8_lengths :
    utf8Decode [0x41, 0xC3, 0xA9, 0xE2, 0x82, 0xAC, 0xF0, 0x9F, 0x98, 0x80] =
      some [Char.ofNat 0x41, Char.ofNat 0xE9, Char.ofNat 0x20AC, Char.ofNat 0x1F600] := by decide
/-- A lone continuation byte, a cut code point, an overlong form, a surrogate, U+110000 and a byte that
opens nothing. -/
theorem test_utf8_rejects :
    [[0x80], [0xE2, 0x82], [0xC0, 0x80], [0xED, 0xA0, 0x80], [0xF4, 0x90, 0x80, 0x80],
      [0xFF]].map utf8Decode = [none, none, none, none, none, none] := by decide
theorem test_assemble_not_utf8 :
    assemble .default [['X']] [0x43, 0x80] = .error .notUtf8 := by decide

/-- A `#` token after the first, on a DEBUG line and as a declared label's name in a branch (R105). -/
theorem test_debug_hash_refused :
    readLine [['X']] ⟨[.plain .halt], [], []⟩ [debugName, ['#', 'x']] = .error .operandCount := by decide
theorem test_branch_hash_refused :
    readLine [['X']] ⟨[], [(['#', 'x'], 0)], []⟩ [['B'], ['X'], ['#', 'x']] =
      .error .operandCount := by decide

/-- Three lines: a label, a branch to it and an annotated HALT. -/
def source : List Byte :=
  ascii ['[', 'l', ']', ':', '\n', 'B', ' ', 'X', ' ', 'l', '\n', 'H', 'A', 'L', 'T', '\n',
    'D', 'E', 'B', 'U', 'G', ' ', 't']

theorem test_assemble :
    assemble .default [['A'], ['X']] source =
      .ok ⟨[⟨1, 0b101010000⟩, ⟨0, 0b110100000⟩], Vector.replicate 16 0, 1, [(1, ['t'])]⟩ := by decide
theorem test_assemble_immediate :
    assemble .default [['A'], ['X']] (ascii ['L', 'S', 'L', ' ', 'X', ' ', '8']) =
      .error .immediateOutOfRange := by decide
theorem test_assemble_undeclared :
    assemble .default [['X']] (ascii ['B', ' ', 'X', ' ', 'l']) = .error .undeclaredLabel := by decide
theorem test_assemble_operand_count :
    assemble .default [['X']] (ascii ['N', 'O', 'T', ' ', 'X']) = .error .operandCount := by decide
theorem test_assemble_comment :
    assemble .default [['X']] (ascii ['#', 'x', '\n', '\t', '\n', 'C', 'O', 'V']) =
      .ok ⟨[⟨0, 0b111000000⟩], Vector.replicate 16 0, 0, []⟩ := by decide
theorem test_machine_code :
    machineCode ⟨[⟨1, 0b101010001⟩], Vector.replicate 16 0, 0, []⟩ =
      [['1', '0', '1', '0', '1', '0', '0', '0', '1']] := by decide

/-- A driver for two registers with a preload. -/
def driver : Driver := ⟨[['A'], ['X']], [(1, 10), (0, 250)], 0, 1⟩

/-- The state `driver` and `source` boot into. -/
def booted : State :=
  { State.reset with
    regs := [0, 0], mem := [(0, 250), (1, 10)], imem := [⟨1, 0b101010000⟩, ⟨0, 0b110100000⟩],
    nlab := 1, dbg := [(1, ['t'])], memMin := 0, memMax := 1 }

theorem test_boot : boot .default driver source = .ok booted := by decide
theorem test_boot_refuses_names :
    boot .default { driver with names := [] } source = .error .registerNames := by decide
theorem test_report :
    report { booted with status := .halted } = some ⟨.halted, [250, 10], []⟩ := by decide
theorem test_run_out_of_fuel : run 3 booted = none := by decide

/-! ### Witnesses: the hypotheses of each statement can be met -/

/-- A running state with two registers, for the witnesses. -/
def two (p q pc : Byte) (e : Entry) : State := { at10 [p, q] false e with pc := pc }

theorem witness_DecodeEncodeAgree :
    OpcodeMap.default.Valid ∧ (Instr.lsl 15 7).WellFormed ∧ (Instr.b 15 15).WellFormed := by decide
theorem witness_EncodeDecodeAgree :
    decode .default ⟨15, 0b101100111⟩ = .ok (.lsl 15 7) := by decide
theorem witness_IllegalOpcodesAreFour :
    decode .default ⟨0, 0b000001111⟩ = .error .illegalOpcode ∧
    decode .default ⟨0, 0b111010000⟩ = .error .illegalOpcode ∧
    decode .default ⟨0, 0b000010000⟩ = .ok (.ass 0 0) ∧
    decode .default ⟨0, 0b111000000⟩ = .ok .cov := by decide
theorem witness_ReservedFieldIsClassN :
    OpcodeMap.default.Valid ∧ decode .default ⟨1, 0b111000000⟩ = .error .reservedOperandField ∧
    decode .default ⟨0, 0b111000001⟩ = .error .reservedOperandField := by decide
theorem witness_DecoderRejectsLargeShifts :
    OpcodeMap.default.Valid ∧ decode .default ⟨0, 0b101101000⟩ = .error .shiftOutOfRange ∧
    decode .default ⟨0, 0b101100111⟩ = .ok (.lsl 0 7) := by decide
theorem witness_WordTextIsMsbFirst : (wordText 0b100000000)[0]? = some '1' ∧ 8 < 9 := by decide

theorem witness_StepRunsDecodedInstruction :
    let s := at10 [1, 2] false ⟨0, 0b001000001⟩
    s.status = .running ∧ s.imem[s.pc.toNat]? = some ⟨0, 0b001000001⟩ ∧
      decode s.opcodeMap ⟨0, 0b001000001⟩ = .ok (.add 0 1) := by decide
theorem witness_FetchPastEndFaults :
    State.reset.status = .running ∧ State.reset.imem.length ≤ State.reset.pc.toNat ∧
    (let s := at10 [0] false ⟨0, 0⟩
     s.status = .running ∧ s.pc.toNat < s.imem.length ∧
      step s = .next (s.raiseFault .illegalOpcode)) := ⟨rfl, by decide, rfl, by decide, rfl⟩
theorem witness_UndecodableEntryFaults :
    [⟨0, 0⟩, ⟨0, 0b010000001⟩, ⟨0, 0b101101000⟩].map (fun e : Entry =>
      let s := at10 [1] false e
      (s.status, s.imem[s.pc.toNat]?, decode s.opcodeMap e)) =
    [(.running, some ⟨0, 0⟩, .error .illegalOpcode),
     (.running, some ⟨0, 0b010000001⟩, .error .reservedOperandField),
     (.running, some ⟨0, 0b101101000⟩, .error .shiftOutOfRange)] := by decide
theorem witness_StepExactlyWhenRunning :
    State.reset.halt.status ≠ .running ∧ State.reset.status = .running := by decide
theorem witness_BadRegisterIndexTraps :
    ¬ (Instr.movf 0 2).FitsRegisters (two 1 2 10 ⟨0, 0⟩).nreg := by decide

/-- The index-fault clause of every statement of an instruction: an index just past two registers. -/
theorem witness_bad_index :
    ¬ (2#4).toNat < (two 1 2 10 ⟨0, 0⟩).nreg ∧
    ¬ ((0#4).toNat < (two 1 2 10 ⟨0, 0⟩).nreg ∧ (2#4).toNat < (two 1 2 10 ⟨0, 0⟩).nreg) ∧
    ¬ ((2#4).toNat < (two 1 2 10 ⟨0, 0⟩).nreg ∧ (0#4).toNat < (two 1 2 10 ⟨0, 0⟩).nreg) := by decide
/-- The reserved-field clause of NOT, CFB, HALT, GOV and COV: a nonzero field, a nonzero `asel`. -/
theorem witness_reserved :
    [⟨0, 0b010000001⟩, ⟨8, 0b010000000⟩, ⟨0, 0b100101000⟩, ⟨1, 0b100100000⟩, ⟨0, 0b110100001⟩,
      ⟨15, 0b110100000⟩, ⟨0, 0b110111111⟩, ⟨1, 0b110110000⟩, ⟨0, 0b111000001⟩,
      ⟨1, 0b111000000⟩].map (fun e : Entry =>
        (opcodeField e.word, decide (fieldOf e.word = 0#4 ∧ e.asel = 0#4))) =
    [(0b01000#5, false), (0b01000#5, false), (0b10010#5, false), (0b10010#5, false),
      (0b11010#5, false), (0b11010#5, false), (0b11011#5, false), (0b11011#5, false),
      (0b11100#5, false), (0b11100#5, false)] := by decide
/-- The shift-field clause of LSL and LSR: the field 8. -/
theorem witness_shift_field :
    opcodeField 0b101101000 = 0b10110#5 ∧ opcodeField 0b101111000 = 0b10111#5 ∧
    7 < (fieldOf 0b101101000).toNat ∧ 7 < (fieldOf 0b101111000).toNat := by decide

/-- An existing register and a pc below 255: ASS, GOV, COV. -/
theorem witness_AssWritesImmediate :
    let s := two 1 2 254 ⟨0, 0⟩
    (1#4).toNat < s.nreg ∧ 1 ≤ s.nreg ∧ s.pc ≠ 255#8 := by decide
theorem witness_GovCopiesFlag : 1 ≤ (two 1 2 254 ⟨0, 0⟩).nreg ∧ (two 1 2 254 ⟨0, 0⟩).pc ≠ 255#8 := by
  decide
theorem witness_CovClearsFlag :
    (two 1 2 254 ⟨0, 0⟩).pc ≠ 255#8 ∧
    (let s := at10 [9] true ⟨0, 0b111000000⟩
     step s = .next { s with pc := 11, ovf := false } ∧ s.ovf = true) := ⟨by decide, rfl, rfl⟩
/-- Two readable registers and a pc below 255: MOVF, MOVT, ADD, ADDI, AND, OR, the comparisons, LOAD. -/
theorem witness_AddWrapsAndSignals :
    let s := two 200 56 254 ⟨0, 0⟩
    (s.reg? 0 = some 200 ∧ s.reg? 1 = some 56 ∧ s.pc ≠ 255#8) ∧
    (let u := two 200 55 255 ⟨0, 0⟩
     u.reg? 0 = some 200 ∧ u.reg? 1 = some 55 ∧ u.pc = 255#8) := by decide
theorem witness_MovfCopiesToFirst :
    let s := two 200 56 254 ⟨0, 0⟩
    (0#4).toNat < s.nreg ∧ s.reg? 1 = some 56 ∧ s.pc ≠ 255#8 := by decide
theorem witness_MovtCopiesToSecond :
    let s := two 200 56 254 ⟨0, 0⟩
    s.reg? 0 = some 200 ∧ (1#4).toNat < s.nreg ∧ s.pc ≠ 255#8 := by decide
theorem witness_AddiWrapsAndSignals :
    ((two 241 0 0 ⟨0, 0⟩).reg? 0 = some 241 ∧ (two 241 0 0 ⟨0, 0⟩).pc ≠ 255#8) ∧
    ((two 241 0 255 ⟨0, 0⟩).reg? 0 = some 241 ∧ (two 241 0 255 ⟨0, 0⟩).pc = 255#8) := by decide
theorem witness_SubExactOrUnderflow :
    let s := two 4 4 254 ⟨0, 0⟩
    let u := two 3 4 255 ⟨0, 0⟩
    (s.reg? 0 = some 4 ∧ s.reg? 1 = some 4 ∧ (4#8).toNat ≤ (4#8).toNat ∧ s.pc ≠ 255#8) ∧
    (u.reg? 0 = some 3 ∧ u.reg? 1 = some 4 ∧ (3#8).toNat < (4#8).toNat) := by decide
theorem witness_SubiExactOrUnderflow :
    ((two 15 0 254 ⟨0, 0⟩).reg? 0 = some 15 ∧ (15#4).toNat ≤ (15#8).toNat ∧
      (two 15 0 254 ⟨0, 0⟩).pc ≠ 255#8) ∧
    ((two 14 0 255 ⟨0, 0⟩).reg? 0 = some 14 ∧ (14#8).toNat < (15#4).toNat) := by decide
theorem witness_NotComplementsAccumulator :
    (two 15 0 254 ⟨0, 0⟩).reg? 0#4 = some 15 ∧ (two 15 0 254 ⟨0, 0⟩).pc ≠ 255#8 := by decide
theorem witness_NotTwiceRestores :
    (two 15 0 10 ⟨0, 0⟩).status = .running ∧
    exec .not (two 15 0 10 ⟨0, 0⟩) = .next (two 240 0 11 ⟨0, 0⟩) ∧
    (two 240 0 11 ⟨0, 0⟩).status = .running ∧
    exec .not (two 240 0 11 ⟨0, 0⟩) = .next (two 15 0 12 ⟨0, 0⟩) := ⟨rfl, rfl, rfl, rfl⟩
theorem witness_AndIsBitwise :
    let s := two 0xCA 0x0F 0 ⟨0, 0⟩
    s.reg? 0 = some 0xCA ∧ s.reg? 1 = some 0x0F ∧ s.pc ≠ 255#8 := by decide
theorem witness_OrIsBitwise :
    let s := two 0xCA 0x0F 254 ⟨0, 0⟩
    s.reg? 0 = some 0xCA ∧ s.reg? 1 = some 0x0F ∧ s.pc ≠ 255#8 := by decide
theorem witness_ComparisonsWriteOneOrZero :
    let s := two 100 100 0 ⟨0, 0⟩
    s.reg? 0 = some 100 ∧ s.reg? 1 = some 100 ∧ s.pc ≠ 255#8 := by decide
theorem witness_CfbCopiesBitSeven :
    (two 128 0 254 ⟨0, 0⟩).reg? 0#4 = some 128 ∧ (two 128 0 254 ⟨0, 0⟩).pc ≠ 255#8 := by decide
theorem witness_LoadReadsMemory :
    let s := { two 0 255 0 ⟨0, 0⟩ with mem := [(255, 9)] }
    (0#4).toNat < s.nreg ∧ s.reg? 1 = some 255 ∧ s.pc ≠ 255#8 ∧ s.mem.read 255 = 9 := by decide
theorem witness_StoreWritesOneByte :
    let s := { two 42 255 0 ⟨0, 0⟩ with mem := [(255, 9)] }
    s.reg? 0 = some 42 ∧ s.reg? 1 = some 255 ∧ s.mem.wf ∧ s.pc ≠ 255#8 := by decide
theorem witness_LoadReturnsLastStore :
    let s := two 42 200 10 ⟨0, 0⟩
    let t := { two 42 200 11 ⟨0, 0⟩ with mem := [(200, 42)] }
    s.mem.wf ∧ s.reg? 0 = some 42 ∧ s.status = .running ∧ exec (.str 0 1) s = .next t ∧
      t.status = .running ∧ t.pc ≠ 255#8 ∧ (0#4).toNat < s.nreg :=
  ⟨by decide, rfl, rfl, rfl, rfl, by decide, by decide⟩
theorem witness_BezBranchesOnZero :
    ((two 0 0 255 ⟨0, 0⟩).reg? 0 = some 0#8) ∧
    ((two 1 0 254 ⟨0, 0⟩).reg? 0 = some 1 ∧ (1 : Byte) ≠ 0#8 ∧ (two 1 0 254 ⟨0, 0⟩).pc ≠ 255#8) ∧
    ((two 1 0 255 ⟨0, 0⟩).reg? 0 = some 1 ∧ (two 1 0 255 ⟨0, 0⟩).pc = 255#8) := by decide
theorem witness_BnzBranchesOnNonzero :
    ((two 1 0 255 ⟨0, 0⟩).reg? 0 = some 1 ∧ (1 : Byte) ≠ 0#8) ∧
    ((two 0 0 254 ⟨0, 0⟩).reg? 0 = some 0#8 ∧ (two 0 0 254 ⟨0, 0⟩).pc ≠ 255#8) ∧
    ((two 0 0 255 ⟨0, 0⟩).reg? 0 = some 0#8 ∧ (two 0 0 255 ⟨0, 0⟩).pc = 255#8) := by decide
theorem witness_ImmediateShifts :
    (two 0x81 0 0 ⟨0, 0⟩).reg? 0 = some 0x81 ∧ (7#4).toNat ≤ 7 ∧ (two 0x81 0 0 ⟨0, 0⟩).pc ≠ 255#8 := by
  decide
theorem witness_RegisterShifts :
    let s := two 0xF0 7 254 ⟨0, 0⟩
    let u := two 0xF0 8 255 ⟨0, 0⟩
    (s.reg? 0 = some 0xF0 ∧ s.reg? 1 = some 7 ∧ (7#8).toNat ≤ 7 ∧ s.pc ≠ 255#8) ∧
    (u.reg? 0 = some 0xF0 ∧ u.reg? 1 = some 8 ∧ 7 < (8#8).toNat) := by decide

theorem witness_PcOverflowAfterWrites :
    let s := two 200 56 255 ⟨0, 0⟩
    let u := { two 0 56 1 ⟨0, 0⟩ with ovf := true }
    s.status = .running ∧ s.pc = 255#8 ∧ (Instr.add 0 1).mnemonic.operandClass ≠ .branch ∧
      exec (.add 0 1) (s.setPc 0#8) = .next u ∧ u.status = .running :=
  ⟨rfl, rfl, by decide, rfl, rfl⟩
theorem witness_FaultWritesNothing :
    let s := at10 [4, 9] true ⟨0, 0b001100001⟩
    let t := { s with status := .faulted .subtractionUnderflow }
    step s = .next t ∧ t.status = .faulted .subtractionUnderflow ∧
      FaultReason.subtractionUnderflow ≠ .pcOverflow := ⟨rfl, rfl, by decide⟩
theorem witness_PcMovesByOneOrToTable :
    let s := branching [0] ⟨0, 0b100110000⟩
    let u := atTop [1] ⟨0, 0b100110000⟩
    (step s = .next { s with pc := 7 } ∧ ({ s with pc := 7 } : State).status = .running) ∧
    (step u = .next (u.raiseFault .pcOverflow) ∧
      (u.raiseFault .pcOverflow).status = .faulted .pcOverflow) := ⟨⟨rfl, rfl⟩, rfl, rfl⟩
theorem witness_ProgramIsReadOnly :
    let s := at10 [42, 10] false ⟨0, 0b100010001⟩
    step s = .next { s with pc := 11, mem := [(10, 42)] } := rfl
theorem witness_OnlyStoreChangesMemory :
    let s := at10 [9] true ⟨0, 0b111000000⟩
    step s = .next { s with pc := 11, ovf := false } ∧ fetchDecode s = .ok .cov := ⟨rfl, rfl⟩
theorem witness_OverflowFlagIsSticky :
    let s := at10 [255] false ⟨0, 0b001010001⟩
    let t := { s with regs := [0], pc := 11, ovf := true }
    step s = .next t ∧ s.ovf = false ∧ t.ovf = true ∧
    (let u := at10 [1] true ⟨0, 0b001010001⟩
     step u = .next { u with regs := [2], pc := 11 } ∧ u.ovf = true) := ⟨rfl, rfl, rfl, rfl, rfl⟩
theorem witness_TraceFollowsAnnotations :
    let s := { at10 [4] true ⟨0, 0b110110000⟩ with dbg := [(11, ['t'])] }
    let t := { s with regs := [1], pc := 11, trace := [⟨11, 1, ['t']⟩] }
    let u := at10 [4] true ⟨0, 0b110110000⟩
    let h := at10 [4] true ⟨0, 0b110100000⟩
    (step s = .next t ∧ t.status = .running ∧ s.dbg.find? t.pc.toNat = some ['t']) ∧
    (step u = .next { u with regs := [1], pc := 11 } ∧ u.dbg.find? 11 = none) ∧
    (step h = .next h.halt ∧ h.halt.status ≠ .running) :=
  ⟨⟨rfl, rfl, rfl⟩, ⟨rfl, rfl⟩, rfl, by decide⟩
theorem witness_TraceIsUnobservable :
    let s := at10 [4] true ⟨0, 0b110110000⟩
    SameButDebug s { s with dbg := [(11, ['t'])] } ∧ step s = .next { s with regs := [1], pc := 11 } :=
  ⟨rfl, rfl⟩
theorem witness_StepKeepsInvariant :
    booted.WithinLimits ∧ booted.mem.wf ∧ booted.StatusExplained ∧ step booted = .next booted :=
  ⟨by decide, by decide, trivial, rfl⟩
theorem witness_StepKeepsLegalImage : LegalImage booted ∧ step booted = .next booted := by
  refine ⟨fun e he => ?_, rfl⟩
  rcases List.mem_cons.mp he with rfl | he
  · exact ⟨.b 1 0, by decide, by decide⟩
  · exact ⟨.halt, by rw [List.mem_singleton.mp he]; decide, by decide⟩
theorem witness_BootLaunchState :
    boot .default driver source = .ok booted ∧ (1#4).toNat < booted.nreg ∧
      (0, 250) ∈ driver.preload ∧ (255#8).toNat ∉ driver.preload.map Prod.fst := by decide
theorem witness_BootHasInvariant :
    OpcodeMap.default.Valid ∧ boot .default driver source = .ok booted := by decide
theorem witness_BootHasLegalImage :
    OpcodeMap.default.Valid ∧ boot .default driver source = .ok booted := witness_BootHasInvariant
theorem witness_SourceIsUtf8 :
    utf8Encode [Char.ofNat 0x41, Char.ofNat 0xE9] = [0x41, 0xC3, 0xA9] := by decide
theorem witness_BootedRunsAreSafe :
    OpcodeMap.default.Valid ∧ boot .default driver source = .ok booted := witness_BootHasInvariant
theorem witness_BranchTableMatchesRanks :
    let l : Loaded := ⟨[.plain .halt], [(['b'], 1), (['a'], 0)], []⟩
    (l.labels.map Prod.fst).Nodup ∧
    buildImage .default l =
      .ok ⟨[⟨0, 0b110100000⟩], #v[0, 1, 0, 0, 0, 0, 0, 0, 0, 0, 0, 0, 0, 0, 0, 0], 2, []⟩ := by decide
theorem witness_RunResultIgnoresFuel :
    run 1 (at10 [4] false ⟨0, 0b110100000⟩) =
      some { at10 [4] false ⟨0, 0b110100000⟩ with status := .halted } := by decide
theorem witness_SelfBranchNeverEnds :
    booted.status = .running ∧ fetchDecode booted = .ok (.b 1 0) ∧
      booted.btt[(0#4).toNat] = booted.pc := by decide
theorem witness_ReportIsTheWindow :
    booted.memMin.toNat ≤ booted.memMax.toNat ∧ booted.halt.status ≠ .running ∧
      booted.status = .running := by decide

end Sys2Proof.Tests
end

section
/-! SUPPORT. When a step is defined (R52), and what it can do to the overflow flag (R33, R34): the two
obligations of 10_state.md. -/

namespace Sys2Proof.Machine

/-! ### When a step is defined (R52) -/

theorem step_of_running (s : State) (h : s.status = .running) : step s = stepRunning s := by
  simp [step, h]

theorem step_of_not_running (s : State) (h : s.status ≠ .running) : step s = .fault .runEnded := by
  cases hs : s.status with
  | running => exact absurd hs h
  | halted => simp [step, hs]
  | faulted r => simp [step, hs]

/-- Fetch and decode either fault, which is a next state, or give an instruction, and every
instruction ends with a next state. -/
theorem stepRunning_next (s : State) : ∃ t, stepRunning s = .next t := by
  cases hd : fetchDecode s with
  | error r => exact ⟨s.raiseFault r, by simp [stepRunning, hd]⟩
  | ok i =>
    obtain ⟨t, ht, -⟩ := exec_cases i s
    exact ⟨t, by simp [stepRunning, hd, ht]⟩

/-- Settles O13: the status alone decides whether there is a next state. -/
theorem stepExactlyWhenRunning : Obligations.StepExactlyWhenRunning := fun s =>
  ⟨step_of_not_running s, fun h => (step_of_running s h).symm ▸ stepRunning_next s⟩

/-! ### The overflow flag (R33, R34) -/

/-- An instruction's own effect leaves the flag, except that COV clears it: the flag is set only later,
by the latch. -/
theorem Effect.ovf_cases {s u : State} {i : Instr} {sig : Signal} (h : Effect s i sig u) :
    u.ovf = s.ovf ∨ (i = .cov ∧ u.ovf = false) := by
  cases h with
  | register | sum | store | notTaken | taken => exact .inl (by simp)
  | clear clears => exact .inr ⟨clears, rfl⟩

/-- Only an addition signals `OVERFLOW`. -/
theorem Effect.adds_of_overflow {s u : State} {i : Instr} (h : Effect s i .overflow u) :
    i.mnemonic = .add ∨ i.mnemonic = .addi := by
  cases h with
  | sum d v named adds => exact adds

/-- How an instruction may leave the flag: kept, set by an addition, or cleared by COV. -/
inductive FlagChange (s : State) (i : Instr) (t : State) : Prop where
  | kept (same : t.ovf = s.ovf)
  | set (adds : i.mnemonic = .add ∨ i.mnemonic = .addi) (on : t.ovf = true)
  | cleared (clears : i = .cov) (off : t.ovf = false)

/-- An ending that leaves the flag where the effect put it changes it as the effect does. -/
theorem Effect.flagChange {s u t : State} {i : Instr} {sig : Signal} (h : Effect s i sig u)
    (ht : t.ovf = u.ovf) : FlagChange s i t := by
  rcases h.ovf_cases with hu | ⟨hi, hu⟩
  · exact .kept (ht.trans hu)
  · exact .cleared hi (ht.trans hu)

/-- Every ending of an instruction keeps the flag, sets it by an addition or clears it by COV. A fault
keeps it but for the clearing COV at pc 255; only the latch of a completed addition sets it. -/
theorem Ended.flagChange {s t : State} {i : Instr} (h : Ended s i t) : FlagChange s i t := by
  cases h with
  | badIndex _ is | underflow _ _ is | badShift _ _ is | halted _ is => exact .kept (by simp [is])
  | pcOverflow _ sig u effect _ _ is => exact effect.flagChange (by simp [is])
  | branched _ u effect is => exact effect.flagChange (by simp [is])
  | wentOn _ sig u effect noBranch _ is =>
    cases sig with
    | none => exact effect.flagChange (by simp [is])
    | overflow => exact .set effect.adds_of_overflow (by simp [is])
    | branch => exact absurd rfl noBranch

/-- A step keeps the flag, or changes it as the instruction it decoded does. -/
theorem step_flagChange {s t : State} (h : step s = .next t) :
    t.ovf = s.ovf ∨ ∃ i, fetchDecode s = .ok i ∧ FlagChange s i t := by
  obtain ⟨-, ⟨r, -, rfl⟩ | ⟨i, hi, -, hend⟩⟩ := step_cases s t h
  · exact .inl (State.raiseFault_ovf s r)
  · exact .inr ⟨i, hi, hend.flagChange⟩

/-- Settles O44: of the three changes a step can make to the flag, clearing is COV's alone and setting
an addition's alone. -/
theorem overflowFlagIsSticky : Obligations.OverflowFlagIsSticky := by
  intro s t h
  have of_same (same : t.ovf = s.ovf) :
      (s.ovf = true → t.ovf = true ∨ fetchDecode s = .ok .cov) ∧
      (s.ovf = false → t.ovf = true →
        ∃ i, fetchDecode s = .ok i ∧ (i.mnemonic = .add ∨ i.mnemonic = .addi)) :=
    ⟨fun hs => .inl (same.trans hs), fun hs ht => by simp [same, hs] at ht⟩
  rcases step_flagChange h with same | ⟨i, hi, same | ⟨adds, on⟩ | ⟨rfl, off⟩⟩
  · exact of_same same
  · exact of_same same
  · exact ⟨fun _ => .inl on, fun _ _ => ⟨i, hi, adds⟩⟩
  · exact ⟨fun _ => .inr hi, fun _ ht => by simp [off] at ht⟩

end Sys2Proof.Machine
end

section
/-! SUPPORT. What the block reports of the data memory at the end of a run (R84): the obligation of
20_memory.md. -/

namespace Sys2Proof.Machine

/-! ### The report window (R84) -/

/-- An address below 256 survives the passage through a byte. -/
theorem Memory.read_ofNat (m : Memory) (k : Nat) (hk : k < 256) :
    m.read (BitVec.ofNat 8 k) = m.byteAt k := by
  rw [Memory.read, BitVec.toNat_ofNat, Nat.mod_eq_of_lt hk]

/-- Both ends of the window belong to it. -/
theorem window_length (m : Memory) (lo hi : Byte) (h : lo.toNat ≤ hi.toNat) :
    (window m lo hi).length = hi.toNat - lo.toNat + 1 := by
  rw [window, List.length_map, List.length_range, Nat.sub_add_comm h]

/-- The window lists the bytes by rising address, its first end first. -/
theorem window_getElem? (m : Memory) (lo hi : Byte) (k : Nat) (h : lo.toNat + k ≤ hi.toNat) :
    (window m lo hi)[k]? = some (m.read (BitVec.ofNat 8 (lo.toNat + k))) := by
  have inWindow : k < hi.toNat + 1 - lo.toNat := by omega
  have inMemory : lo.toNat + k < 256 := Nat.lt_of_le_of_lt h hi.isLt
  rw [window, List.getElem?_map, List.getElem?_range inWindow, Option.map_some,
    Memory.read_ofNat m _ inMemory]

theorem report_of_running (s : State) (h : s.status = .running) : report s = none := if_pos h

/-- A halt and a fault share one report. -/
theorem report_of_not_running (s : State) (h : s.status ≠ .running) :
    report s = some ⟨s.status, window s.mem s.memMin s.memMax, s.trace⟩ := if_neg h

/-- Settles O60: the report of an ended run is its window, whose length and bytes are known. -/
theorem reportIsTheWindow : Obligations.ReportIsTheWindow := by
  intro s ordered
  refine ⟨report_of_running s, fun ended =>
    ⟨_, report_of_not_running s ended, rfl, rfl, window_length s.mem _ _ ordered, fun k hk => ?_⟩⟩
  exact window_getElem? s.mem _ _ k (Nat.add_le_of_le_sub' ordered hk)

end Sys2Proof.Machine
end

section
/-! SUPPORT. The one label ordering (R100), the branch-target table made from it (R101) and the image
built with both (R112, R114): the obligation of 30_encoding.md on the table. -/

namespace Sys2Proof.Machine

/-! ### The label ordering (R100) -/

/-- Inserting a label at its place loses none and adds only that one. -/
theorem insertLabel_perm (x : Text × Nat) (sorted : List (Text × Nat)) :
    (insertLabel x sorted).Perm (x :: sorted) := by
  induction sorted with
  | nil => exact .refl _
  | cons y rest ih =>
    rw [insertLabel]
    split
    · exact .refl _
    · exact (ih.cons y).trans (.swap x y rest)

/-- The ordering only rearranges the labels. -/
theorem sortLabels_perm (labels : List (Text × Nat)) : (sortLabels labels).Perm labels := by
  induction labels with
  | nil => exact .refl _
  | cons x rest ih => exact (insertLabel_perm x _).trans (ih.cons x)

@[simp] theorem sortLabels_length (labels : List (Text × Nat)) :
    (sortLabels labels).length = labels.length := (sortLabels_perm labels).length_eq

@[simp] theorem mem_sortLabels {labels : List (Text × Nat)} {x : Text × Nat} :
    x ∈ sortLabels labels ↔ x ∈ labels := (sortLabels_perm labels).mem_iff

/-- Labels that are distinct in order of declaration are distinct in order of rank. -/
theorem sortLabels_names_nodup {labels : List (Text × Nat)}
    (distinct : (labels.map Prod.fst).Nodup) : ((sortLabels labels).map Prod.fst).Nodup :=
  ((sortLabels_perm labels).map Prod.fst).nodup_iff.mpr distinct

/-- Among distinct labels, the one at place `k` of the ordering has rank `k`: no earlier place holds
its name. -/
theorem rankOf?_of_getElem? {labels : List (Text × Nat)} {k : Nat} {x : Text × Nat}
    (distinct : (labels.map Prod.fst).Nodup) (place : (sortLabels labels)[k]? = some x) :
    rankOf? labels x.1 = some k := by
  have named : ((sortLabels labels).map Prod.fst)[k]? = some x.1 := by simp [place]
  obtain ⟨inRange, nameAt⟩ := List.getElem?_eq_some_iff.mp named
  refine List.idxOf?_eq_some_iff.mpr ⟨inRange, nameAt, fun j earlier sameName => ?_⟩
  exact earlier.ne ((sortLabels_names_nodup distinct).getElem_inj_iff.mp (sameName.trans nameAt.symm))

/-! ### The branch-target table (R101) -/

/-- The table holds, as a byte, the address of the label at each place of the ordering. -/
theorem branchTable_getElem_of_label {labels : List (Text × Nat)} {k : Fin 16} {x : Text × Nat}
    (place : (sortLabels labels)[k.val]? = some x) :
    (branchTable labels)[k.val] = BitVec.ofNat 8 x.2 := by
  simp [branchTable, place]

/-- An address within the limit of an image (R112) survives the passage through a table byte. -/
theorem branchTable_toNat_of_label {labels : List (Text × Nat)} {k : Fin 16} {x : Text × Nat}
    (addressesFit : ∀ y ∈ labels, y.2 ≤ 255) (place : (sortLabels labels)[k.val]? = some x) :
    (branchTable labels)[k.val].toNat = x.2 := by
  have fits : x.2 < 2 ^ 8 :=
    Nat.lt_succ_of_le (addressesFit x (mem_sortLabels.mp (List.mem_of_getElem? place)))
  rw [branchTable_getElem_of_label place, BitVec.toNat_ofNat, Nat.mod_eq_of_lt fits]

/-- Past the last label the table holds the padding 0. -/
theorem branchTable_getElem_of_length_le {labels : List (Text × Nat)} {k : Fin 16}
    (padding : labels.length ≤ k.val) : (branchTable labels)[k.val] = 0#8 := by
  have noLabel : (sortLabels labels)[k.val]? = none := by simp [padding]
  simp [branchTable, noLabel]

/-! ### The image built with the table (R112, R114) -/

/-- What it takes to build an image, and what the image then is. -/
theorem buildImage_ok {m : OpcodeMap} {l : Loaded} {p : Image} (h : buildImage m l = .ok p) :
    l.code.length ≤ Config.maxProgram ∧ l.labels.length ≤ Config.maxLabels ∧
      (∀ x ∈ l.labels, x.2 ≤ 255) ∧
      ∃ is, resolveAll l.labels l.code = .ok is ∧
        p = ⟨is.map (encode m), branchTable l.labels, l.labels.length, l.annotations⟩ := by
  rw [buildImage] at h
  split at h
  · cases h
  next codeFits =>
  split at h
  · cases h
  next labelsFit =>
  split at h
  · cases h
  next addressesFit =>
  split at h
  · cases h
  next is resolved =>
  cases h
  exact ⟨Nat.le_of_not_lt codeFits, Nat.le_of_not_lt labelsFit,
    fun x hx => Nat.le_of_not_lt fun large => addressesFit ⟨x, hx, large⟩, is, resolved, rfl⟩

/-- Settles O56: the table and the ranks are read off the same ordering, so a label's place in it is
both its rank and the index of its address, and every place below the label count is some label's. -/
theorem branchTableMatchesRanks : Obligations.BranchTableMatchesRanks := by
  intro m l p distinct built
  obtain ⟨-, labelsFit, addressesFit, is, -, rfl⟩ := buildImage_ok built
  have atPlace {k : Fin 16} {x : Text × Nat} (place : (sortLabels l.labels)[k.val]? = some x) :
      rankOf? l.labels x.1 = some k.val ∧ (branchTable l.labels)[k.val].toNat = x.2 :=
    ⟨rankOf?_of_getElem? distinct place, branchTable_toNat_of_label addressesFit place⟩
  refine ⟨rfl, fun x declared => ?_, fun k below => ?_, fun k => branchTable_getElem_of_length_le⟩
  · obtain ⟨k, inRange, place⟩ := List.mem_iff_getElem.mp (mem_sortLabels.mpr declared)
    have belowCount : k < l.labels.length := sortLabels_length l.labels ▸ inRange
    exact ⟨⟨k, Nat.lt_of_lt_of_le belowCount labelsFit⟩,
      atPlace (List.getElem?_eq_some_iff.mpr ⟨inRange, place⟩)⟩
  · have inRange : k.val < (sortLabels l.labels).length := (sortLabels_length l.labels).symm ▸ below
    have place := List.getElem?_eq_getElem inRange
    exact ⟨_, mem_sortLabels.mp (List.getElem_mem inRange), atPlace place⟩

end Sys2Proof.Machine
end

section
/-! SUPPORT. The encoding, completion and index fault that every instruction with an ALU result shares,
and data movement (R115 to R117): the obligations of 40_move.md. -/

namespace Sys2Proof.Machine

/-! ### Encoding (R89) -/

/-- The default map numbers an instruction by its mnemonic; the fields are the instruction's own. -/
theorem encodesAs_default (i : Instr) :
    EncodesAs i i.firstOperand (OpcodeMap.default.code i.mnemonic) i.operandField := rfl

/-! ### The index check (R153) -/

/-- An instruction that names one register fits exactly when that register exists. -/
theorem fitsRegisters_one {i : Instr} {a : RegIdx} (names : i.registers = [a]) (n : Nat) :
    i.FitsRegisters n ↔ a.toNat < n := by
  simp [Instr.FitsRegisters, names]

/-- An instruction that names two registers fits exactly when both exist. -/
theorem fitsRegisters_two {i : Instr} {a r : RegIdx} (names : i.registers = [a, r]) (n : Nat) :
    i.FitsRegisters n ↔ a.toNat < n ∧ r.toNat < n := by
  simp [Instr.FitsRegisters, names]

/-- Of the ways an instruction ends, an unfit one has only the index fault: HALT names no register, and
every other way asks for registers that exist. -/
theorem traps_of_unfit {i : Instr} {s : State} (unfit : ¬ i.FitsRegisters s.nreg) :
    Traps i s .registerIndexOutOfBounds := by
  obtain ⟨t, ht, hend⟩ := exec_cases i s
  cases hend with
  | badIndex _ is => rwa [is] at ht
  | halted halts => exact absurd (fun _ named => by simp [halts, Instr.registers] at named) unfit
  | underflow fits | badShift fits | pcOverflow fits | wentOn fits | branched fits =>
    exact absurd fits unfit

/-! ### Completion with an ALU value (R53) -/

/-- With the registers it names present, an instruction that writes an ALU value without overflow to
one of them completes with that value and the flag as before. -/
theorem completesWith_of_aluValue {i : Instr} {s : State} {d : RegIdx} {v : Byte}
    {out : Except FaultReason AluOut} (fits : i.FitsRegisters s.nreg) (named : d ∈ i.registers)
    (below : s.pc ≠ 255#8) (value : out = aluValue v)
    (runs : exec i s = checkRegs i.registers s (writeAlu d out s)) : CompletesWith i s d v s.ovf := by
  simpa using completesWith_of_alu i i.registers s d ⟨v, false⟩ out fits (fits d named) below value runs

/-- The ALU passes its second operand through. -/
@[simp] theorem alu_pass (p q : Byte) : alu .pass p q = aluValue q := rfl

/-- An immediate is the byte of its number (R88). -/
theorem immediate_eq_ofNat (f : OpField) : immediate f = BitVec.ofNat 8 f.toNat :=
  (BitVec.ofNat_toNat 8 f).symm

/-! ### Data movement (R115 to R117) -/

theorem exec_ass (a : RegIdx) (imm : OpField) (s : State) :
    exec (.ass a imm) s = aluImmediate .pass a imm s := rfl

theorem exec_movf (a r : RegIdx) (s : State) : exec (.movf a r) s = aluRegister .pass a r s := rfl

/-- MOVT has the operands of class R the other way round. -/
theorem exec_movt (a r : RegIdx) (s : State) :
    exec (.movt a r) s = checkRegs [a, r] s (writeAlu r (alu .pass (s.reg r) (s.reg a)) s) := rfl

/-- Settles O15: the ALU passes the immediate, which is the byte of its number. -/
theorem assWritesImmediate : Obligations.AssWritesImmediate := by
  intro s a imm
  have fits_iff := fitsRegisters_one (i := .ass a imm) rfl s.nreg
  refine ⟨encodesAs_default _, fun hasA below => ?_, fun missing =>
    traps_of_unfit (mt fits_iff.mp missing)⟩
  have value : alu .pass (s.reg a) (immediate imm) = aluValue (BitVec.ofNat 8 imm.toNat) := by
    rw [alu_pass, immediate_eq_ofNat]
  exact completesWith_of_aluValue (fits_iff.mpr hasA) (by simp [Instr.registers]) below value
    (exec_ass a imm s)

/-- Settles O16: the ALU passes the second register's value into the first. -/
theorem movfCopiesToFirst : Obligations.MovfCopiesToFirst := by
  intro s a r
  have fits_iff := fitsRegisters_two (i := .movf a r) rfl s.nreg
  refine ⟨encodesAs_default _, fun q hasA readR below => ?_, fun missing =>
    traps_of_unfit (mt fits_iff.mp missing)⟩
  have value : alu .pass (s.reg a) (s.reg r) = aluValue q := by
    rw [alu_pass, s.reg_of_reg? r q readR]
  exact completesWith_of_aluValue (fits_iff.mpr ⟨hasA, State.lt_nreg_of_reg? readR⟩)
    (by simp [Instr.registers]) below value (exec_movf a r s)

/-- Settles O17: the ALU passes the first register's value into the second. -/
theorem movtCopiesToSecond : Obligations.MovtCopiesToSecond := by
  intro s a r
  have fits_iff := fitsRegisters_two (i := .movt a r) rfl s.nreg
  refine ⟨encodesAs_default _, fun p readA hasR below => ?_, fun missing =>
    traps_of_unfit (mt fits_iff.mp missing)⟩
  have value : alu .pass (s.reg r) (s.reg a) = aluValue p := by
    rw [alu_pass, s.reg_of_reg? a p readA]
  exact completesWith_of_aluValue (fits_iff.mpr ⟨State.lt_nreg_of_reg? readA, hasR⟩)
    (by simp [Instr.registers]) below value (exec_movt a r s)

end Sys2Proof.Machine
end

section
/-! SUPPORT. The pc overflow after an ALU result and the ALU's own fault, shared by the instructions
with an ALU result, and arithmetic (R118 to R122): the obligations of 41_arithmetic.md. -/

namespace Sys2Proof.Machine

/-! ### The operands of classes I and R (R88) -/

/-- Class R with the values its registers read as. -/
theorem aluRegister_of_reads {s : State} {a r : RegIdx} {p q : Byte} (op : AluOp)
    (readA : s.reg? a = some p) (readR : s.reg? r = some q) :
    aluRegister op a r s = checkRegs [a, r] s (writeAlu a (alu op p q) s) := by
  rw [aluRegister, s.reg_of_reg? a p readA, s.reg_of_reg? r q readR]

/-- Class I with the value its register reads as. -/
theorem aluImmediate_of_read {s : State} {a : RegIdx} {p : Byte} (op : AluOp) (imm : OpField)
    (readA : s.reg? a = some p) :
    aluImmediate op a imm s = checkRegs [a] s (writeAlu a (alu op p (immediate imm)) s) := by
  rw [aluImmediate, s.reg_of_reg? a p readA]

/-! ### The endings of an ALU instruction other than completion (R53 to R55) -/

/-- An instruction that writes `v` to an existing register at pc 255 keeps the write and takes the pc
overflow (R54). -/
theorem writesThenOverflows_of_write {i : Instr} {s : State} {d : RegIdx} {v : Byte} {sig : Signal}
    (noBranch : sig ≠ .branch) (hasD : d.toNat < s.nreg) (top : s.pc = 255#8)
    (runs : exec i s = retire sig (s.setReg d v)) : WritesThenOverflows i s d v := by
  have overflows := runs.trans (retire_overflow sig (s.setReg d v) noBranch top)
  refine ⟨_, overflows, rfl, s.reg?_setReg_same d v hasD, rfl, rfl, rfl,
    fun j other => s.reg?_setReg_other d j v other, fun _ => rfl, ?_⟩
  exact sameProgram_of_eq rfl rfl rfl rfl rfl rfl rfl (State.nreg_setReg s d v)

/-- At pc 255, with the registers it names present, an instruction that writes an ALU result to one of
them keeps the write and takes the pc overflow, whatever the ALU's overflow output. -/
theorem writesThenOverflows_of_alu {i : Instr} {s : State} {d : RegIdx} {o : AluOut}
    {out : Except FaultReason AluOut} (fits : i.FitsRegisters s.nreg) (named : d ∈ i.registers)
    (top : s.pc = 255#8) (result : out = .ok o)
    (runs : exec i s = checkRegs i.registers s (writeAlu d out s)) :
    WritesThenOverflows i s d o.result := by
  rw [checkRegs_pass _ _ _ fits, result] at runs
  exact writesThenOverflows_of_write (signalOf_ne_branch o.ovfOut) (fits d named) top runs

/-- With the registers it names present, an instruction takes its ALU's fault and writes nothing, at
every pc (R55). -/
theorem traps_of_aluError {i : Instr} {s : State} {d : RegIdx} {reason : FaultReason}
    {out : Except FaultReason AluOut} (fits : i.FitsRegisters s.nreg) (fault : out = .error reason)
    (runs : exec i s = checkRegs i.registers s (writeAlu d out s)) : Traps i s reason := by
  rw [checkRegs_pass _ _ _ fits, fault, writeAlu_error] at runs
  exact runs

/-! ### The ALU's sum and difference (R122) -/

/-- Narrowing the exact sum to a byte is reducing it modulo 256 (R18). -/
theorem alu_add (p q : Byte) : alu .add p q =
    .ok ⟨BitVec.ofNat 8 ((p.toNat + q.toNat) % 256), decide (256 ≤ p.toNat + q.toNat)⟩ := by
  have narrows : BitVec.ofNat 8 ((p.toNat + q.toNat) % 256) = BitVec.ofNat 8 (p.toNat + q.toNat) :=
    BitVec.eq_of_toNat_eq (by simp)
  rw [narrows]
  rfl

/-- Where the minuend is not below the subtrahend the difference is exact. -/
theorem alu_sub_of_le {p q : Byte} (h : q.toNat ≤ p.toNat) :
    alu .sub p q = aluValue (BitVec.ofNat 8 (p.toNat - q.toNat)) := if_neg (Nat.not_lt.mpr h)

/-- Where the minuend is below the subtrahend the ALU faults. -/
theorem alu_sub_of_lt {p q : Byte} (h : p.toNat < q.toNat) :
    alu .sub p q = .error .subtractionUnderflow := if_pos h

/-! ### An instruction that writes a sum (R118, R119) -/

/-- Below pc 255 the sum is written modulo 256, and the flag is latched where it is 256 or more. -/
theorem completesWith_of_sum {i : Instr} {s : State} {d : RegIdx} {p q : Byte}
    (fits : i.FitsRegisters s.nreg) (named : d ∈ i.registers) (below : s.pc ≠ 255#8)
    (runs : exec i s = checkRegs i.registers s (writeAlu d (alu .add p q) s)) :
    CompletesWith i s d (BitVec.ofNat 8 ((p.toNat + q.toNat) % 256))
      (s.ovf || decide (256 ≤ p.toNat + q.toNat)) :=
  completesWith_of_alu i i.registers s d _ _ fits (fits d named) below (alu_add p q) runs

/-- At pc 255 the sum is written modulo 256, and the increment faults before the flag is latched. -/
theorem writesThenOverflows_of_sum {i : Instr} {s : State} {d : RegIdx} {p q : Byte}
    (fits : i.FitsRegisters s.nreg) (named : d ∈ i.registers) (top : s.pc = 255#8)
    (runs : exec i s = checkRegs i.registers s (writeAlu d (alu .add p q) s)) :
    WritesThenOverflows i s d (BitVec.ofNat 8 ((p.toNat + q.toNat) % 256)) :=
  writesThenOverflows_of_alu fits named top (alu_add p q) runs

/-! ### ADD and ADDI -/

theorem exec_add (a r : RegIdx) (s : State) : exec (.add a r) s = aluRegister .add a r s := rfl

theorem exec_addi (a : RegIdx) (imm : OpField) (s : State) :
    exec (.addi a imm) s = aluImmediate .add a imm s := rfl

/-- Settles O18: registers that read exist, so the ALU's sum of the two values is written; the pc decides
between completion and the pc overflow. -/
theorem addWrapsAndSignals : Obligations.AddWrapsAndSignals := by
  intro s a r
  have fits_iff := fitsRegisters_two (i := .add a r) rfl s.nreg
  have named : a ∈ (Instr.add a r).registers := by simp [Instr.registers]
  refine ⟨encodesAs_default _, fun p q readA readR below => ?_, fun p q readA readR top => ?_,
    fun missing => traps_of_unfit (mt fits_iff.mp missing)⟩
  all_goals
    have fits := fits_iff.mpr ⟨State.lt_nreg_of_reg? readA, State.lt_nreg_of_reg? readR⟩
    have runs := (exec_add a r s).trans (aluRegister_of_reads .add readA readR)
  · exact completesWith_of_sum fits named below runs
  · exact writesThenOverflows_of_sum fits named top runs

/-- Settles O19: as ADD, with the immediate as the second value. -/
theorem addiWrapsAndSignals : Obligations.AddiWrapsAndSignals := by
  intro s a imm
  have fits_iff := fitsRegisters_one (i := .addi a imm) rfl s.nreg
  have named : a ∈ (Instr.addi a imm).registers := by simp [Instr.registers]
  refine ⟨encodesAs_default _, fun p readA below => ?_, fun p readA top => ?_,
    fun missing => traps_of_unfit (mt fits_iff.mp missing)⟩
  all_goals
    have fits := fits_iff.mpr (State.lt_nreg_of_reg? readA)
    have runs := (exec_addi a imm s).trans (aluImmediate_of_read .add imm readA)
    rw [← immediate_toNat imm]
  · exact completesWith_of_sum fits named below runs
  · exact writesThenOverflows_of_sum fits named top runs

/-! ### SUB and SUBI (R120, R121) -/

theorem exec_sub (a r : RegIdx) (s : State) : exec (.sub a r) s = aluRegister .sub a r s := rfl

theorem exec_subi (a : RegIdx) (imm : OpField) (s : State) :
    exec (.subi a imm) s = aluImmediate .sub a imm s := rfl

/-- Settles O20: the comparison of the two values decides between the ALU's exact difference, written
without overflow, and its underflow fault. -/
theorem subExactOrUnderflow : Obligations.SubExactOrUnderflow := by
  intro s a r
  have fits_iff := fitsRegisters_two (i := .sub a r) rfl s.nreg
  have named : a ∈ (Instr.sub a r).registers := by simp [Instr.registers]
  refine ⟨encodesAs_default _, fun p q readA readR => ?_,
    fun missing => traps_of_unfit (mt fits_iff.mp missing)⟩
  have fits := fits_iff.mpr ⟨State.lt_nreg_of_reg? readA, State.lt_nreg_of_reg? readR⟩
  have runs := (exec_sub a r s).trans (aluRegister_of_reads .sub readA readR)
  constructor
  · intro le below
    exact completesWith_of_aluValue fits named below (alu_sub_of_le le) runs
  · intro lt
    exact traps_of_aluError fits (alu_sub_of_lt lt) runs

/-- Settles O21: as SUB, with the immediate as the subtrahend. -/
theorem subiExactOrUnderflow : Obligations.SubiExactOrUnderflow := by
  intro s a imm
  have fits_iff := fitsRegisters_one (i := .subi a imm) rfl s.nreg
  have named : a ∈ (Instr.subi a imm).registers := by simp [Instr.registers]
  refine ⟨encodesAs_default _, fun p readA => ?_,
    fun missing => traps_of_unfit (mt fits_iff.mp missing)⟩
  have fits := fits_iff.mpr (State.lt_nreg_of_reg? readA)
  have runs := (exec_subi a imm s).trans (aluImmediate_of_read .sub imm readA)
  rw [← immediate_toNat imm]
  constructor
  · intro le below
    exact completesWith_of_aluValue fits named below (alu_sub_of_le le) runs
  · intro lt
    exact traps_of_aluError fits (alu_sub_of_lt lt) runs

end Sys2Proof.Machine
end

section
/-! SUPPORT. The reserved fields of class N and the accumulator form, the completion shared by class R, and
logic, comparison and bit extraction (R123 to R131): the obligations of 42_logic_compare.md. -/

namespace Sys2Proof.Machine

/-! ### The reserved fields of class N (R92) -/

theorem opcodeMap_default_valid : OpcodeMap.default.Valid := by decide

/-- The operands of a class-N mnemonic are rejected unless both are zero. -/
theorem decodeOperands_reserved {k : Mnemonic} {asel : RegIdx} {f : OpField}
    (classN : k.operandClass = .none) (nonzero : ¬ (f = 0#4 ∧ asel = 0#4)) :
    decodeOperands k asel f = .error .reservedOperandField := by
  cases k with
  | not | cfb | halt | gov | cov => exact if_neg nonzero
  | _ => exact absurd classN (by decide)

/-- The opcode of a class-N mnemonic is decoded to that mnemonic, which rejects nonzero operands. -/
theorem reservedUnlessZero_of_classN {k : Mnemonic} (classN : k.operandClass = .none) :
    ReservedUnlessZero (OpcodeMap.default.code k) := by
  intro e hasCode nonzero
  rw [decode, hasCode, OpcodeMap.mnemonic?_code _ opcodeMap_default_valid]
  exact decodeOperands_reserved classN nonzero

/-! ### The accumulator form of class N and the register form of class R (R88) -/

/-- Class N with the value the accumulator reads as. -/
theorem aluAccumulator_of_read {s : State} {p : Byte} (op : AluOp) (readAcc : s.reg? 0#4 = some p) :
    aluAccumulator op s = checkRegs [0#4] s (writeAlu 0#4 (alu op p p) s) := by
  rw [aluAccumulator, State.acc, s.reg_of_reg? 0#4 p readAcc]

/-- A class-N instruction whose ALU operation gives a value without overflow completes with it in the
accumulator. -/
theorem completesWith_of_aluAccumulator {i : Instr} {s : State} {op : AluOp} {p v : Byte}
    (names : i.registers = [0#4]) (runs : exec i s = aluAccumulator op s)
    (readAcc : s.reg? 0#4 = some p) (below : s.pc ≠ 255#8) (value : alu op p p = aluValue v) :
    CompletesWith i s 0#4 v s.ovf := by
  rw [aluAccumulator_of_read op readAcc, ← names] at runs
  exact completesWith_of_aluValue ((fitsRegisters_one names _).mpr (State.lt_nreg_of_reg? readAcc))
    (by simp [names]) below value runs

/-- A class-R instruction whose ALU operation gives a value without overflow completes with it in its
first register. -/
theorem completesWith_of_aluRegister {i : Instr} {s : State} {op : AluOp} {a r : RegIdx} {p q v : Byte}
    (names : i.registers = [a, r]) (runs : exec i s = aluRegister op a r s)
    (readA : s.reg? a = some p) (readR : s.reg? r = some q) (below : s.pc ≠ 255#8)
    (value : alu op p q = aluValue v) : CompletesWith i s a v s.ovf := by
  rw [aluRegister_of_reads op readA readR, ← names] at runs
  exact completesWith_of_aluValue
    ((fitsRegisters_two names _).mpr ⟨State.lt_nreg_of_reg? readA, State.lt_nreg_of_reg? readR⟩)
    (by simp [names]) below value runs

/-- An instruction that names two registers, one of them missing, takes the index fault. -/
theorem traps_of_missing {i : Instr} {s : State} {a r : RegIdx} (names : i.registers = [a, r])
    (missing : ¬ (a.toNat < s.nreg ∧ r.toNat < s.nreg)) : Traps i s .registerIndexOutOfBounds :=
  traps_of_unfit (mt (fitsRegisters_two names _).mp missing)

/-! ### The ALU's logic, comparisons and bit extraction (R49) -/

/-- The complement of a byte is 255 minus it. -/
theorem alu_not (p q : Byte) : alu .not p q = aluValue (BitVec.ofNat 8 (255 - p.toNat)) := by
  have complement : ~~~p = BitVec.ofNat 8 (255 - p.toNat) := by bv_omega
  rw [← complement]
  rfl

theorem alu_and (p q : Byte) : alu .and p q = aluValue (p &&& q) := rfl

theorem alu_or (p q : Byte) : alu .or p q = aluValue (p ||| q) := rfl

/-- The value 1 or 0 of a condition (R126). -/
theorem boolByte_decide (c : Prop) [Decidable c] : boolByte (decide c) = if c then 1#8 else 0#8 := by
  simp [boolByte]

theorem alu_gt (p q : Byte) : alu .gt p q = aluValue (if p.toNat > q.toNat then 1#8 else 0#8) :=
  congrArg aluValue (boolByte_decide _)

theorem alu_lt (p q : Byte) : alu .lt p q = aluValue (if p.toNat < q.toNat then 1#8 else 0#8) :=
  congrArg aluValue (boolByte_decide _)

theorem alu_ge (p q : Byte) : alu .ge p q = aluValue (if p.toNat ≥ q.toNat then 1#8 else 0#8) :=
  congrArg aluValue (boolByte_decide _)

theorem alu_le (p q : Byte) : alu .le p q = aluValue (if p.toNat ≤ q.toNat then 1#8 else 0#8) :=
  congrArg aluValue (boolByte_decide _)

/-- Bytes are equal exactly when their numbers are. -/
theorem alu_eq (p q : Byte) : alu .eq p q = aluValue (if p = q then 1#8 else 0#8) := by
  simp only [← BitVec.toNat_inj]
  exact congrArg aluValue (boolByte_decide _)

/-- Shifting a byte right by 7 leaves its bit 7 alone. -/
theorem alu_bit7 (p q : Byte) : alu .bit7 p q = aluValue (if p.getLsbD 7 then 1#8 else 0#8) := by
  have top : p.getLsbD 7 = decide (128 ≤ p.toNat) := BitVec.msb_eq_decide p
  have shifted : p.toNat >>> 7 = if p.getLsbD 7 then 1 else 0 := by
    simp only [top, Nat.shiftRight_eq_div_pow, decide_eq_true_eq]
    split <;> omega
  rw [alu, shifted, apply_ite (BitVec.ofNat 8)]

/-! ### NOT and CFB (R123, R131) -/

theorem exec_not (s : State) : exec .not s = aluAccumulator .not s := rfl

theorem exec_cfb (s : State) : exec .cfb s = aluAccumulator .bit7 s := rfl

/-- Settles O22: the ALU's complement of the accumulator is 255 minus it. -/
theorem notComplementsAccumulator : Obligations.NotComplementsAccumulator :=
  ⟨encodesAs_default _, reservedUnlessZero_of_classN (k := .not) rfl, fun s p readAcc below =>
    completesWith_of_aluAccumulator rfl (exec_not s) readAcc below (alu_not p p)⟩

/-- Settles O27: the ALU shifts the accumulator until only its bit 7 is left. -/
theorem cfbCopiesBitSeven : Obligations.CfbCopiesBitSeven :=
  ⟨encodesAs_default _, reservedUnlessZero_of_classN (k := .cfb) rfl, fun s p readAcc below =>
    completesWith_of_aluAccumulator rfl (exec_cfb s) readAcc below (alu_bit7 p p)⟩

/-! ### AND and OR (R124, R125) -/

theorem exec_and (a r : RegIdx) (s : State) : exec (.and a r) s = aluRegister .and a r s := rfl

theorem exec_or (a r : RegIdx) (s : State) : exec (.or a r) s = aluRegister .or a r s := rfl

/-- Settles O24: the byte is the ALU's `p &&& q`, whose bits are the ands of the operands' bits. -/
theorem andIsBitwise : Obligations.AndIsBitwise := by
  intro s a r
  refine ⟨encodesAs_default _, fun p q readA readR below => ⟨p &&& q, ?_, ?_⟩, traps_of_missing rfl⟩
  · exact completesWith_of_aluRegister rfl (exec_and a r s) readA readR below (alu_and p q)
  · exact fun k _ => BitVec.getLsbD_and

/-- Settles O25: the byte is the ALU's `p ||| q`, whose bits are the ors of the operands' bits. -/
theorem orIsBitwise : Obligations.OrIsBitwise := by
  intro s a r
  refine ⟨encodesAs_default _, fun p q readA readR below => ⟨p ||| q, ?_, ?_⟩, traps_of_missing rfl⟩
  · exact completesWith_of_aluRegister rfl (exec_or a r s) readA readR below (alu_or p q)
  · exact fun k _ => BitVec.getLsbD_or

/-! ### The comparisons (R126 to R130) -/

theorem exec_gt (a r : RegIdx) (s : State) : exec (.gt a r) s = aluRegister .gt a r s := rfl

theorem exec_lt (a r : RegIdx) (s : State) : exec (.lt a r) s = aluRegister .lt a r s := rfl

theorem exec_ge (a r : RegIdx) (s : State) : exec (.ge a r) s = aluRegister .ge a r s := rfl

theorem exec_le (a r : RegIdx) (s : State) : exec (.le a r) s = aluRegister .le a r s := rfl

theorem exec_eq (a r : RegIdx) (s : State) : exec (.eq a r) s = aluRegister .eq a r s := rfl

/-- Settles O26: each comparison is class R with its own ALU operation, and the five differ in nothing
else. -/
theorem comparisonsWriteOneOrZero : Obligations.ComparisonsWriteOneOrZero := by
  intro s a r
  refine ⟨⟨encodesAs_default _, encodesAs_default _, encodesAs_default _, encodesAs_default _,
    encodesAs_default _⟩, fun p q readA readR below => ?_, fun missing => ?_⟩
  · exact
      ⟨completesWith_of_aluRegister rfl (exec_gt a r s) readA readR below (alu_gt p q),
       completesWith_of_aluRegister rfl (exec_lt a r s) readA readR below (alu_lt p q),
       completesWith_of_aluRegister rfl (exec_ge a r s) readA readR below (alu_ge p q),
       completesWith_of_aluRegister rfl (exec_le a r s) readA readR below (alu_le p q),
       completesWith_of_aluRegister rfl (exec_eq a r s) readA readR below (alu_eq p q)⟩
  · exact ⟨traps_of_missing rfl missing, traps_of_missing rfl missing, traps_of_missing rfl missing,
      traps_of_missing rfl missing, traps_of_missing rfl missing⟩

end Sys2Proof.Machine
end

section
/-! SUPPORT. The address form of class M, and loads and stores (R132 to R134): the obligations of
43_load_store.md. -/

namespace Sys2Proof.Machine

/-! ### The address form of class M (R134) -/

/-- The effective address is the value the address register reads as. -/
theorem effectiveAddress_of_read {s : State} {r : RegIdx} {addr : Byte} (readR : s.reg? r = some addr) :
    effectiveAddress s r = addr := s.reg_of_reg? r addr readR

/-! ### LOAD (R132) -/

theorem exec_load (a r : RegIdx) (s : State) : exec (.load a r) s =
    checkRegs [a, r] s (writeAlu a (alu .pass (s.reg a) (s.mem.read (effectiveAddress s r))) s) := rfl

/-- Settles O28: the ALU passes the byte at the effective address, read in the state before the write. -/
theorem loadReadsMemory : Obligations.LoadReadsMemory := by
  intro s a r
  refine ⟨encodesAs_default _, fun addr hasA readR below => ?_, traps_of_missing rfl⟩
  have fits := (fitsRegisters_two (i := .load a r) rfl s.nreg).mpr ⟨hasA, State.lt_nreg_of_reg? readR⟩
  have value : alu .pass (s.reg a) (s.mem.read (effectiveAddress s r)) = aluValue (s.mem.read addr) := by
    rw [alu_pass, effectiveAddress_of_read readR]
  exact completesWith_of_aluValue fits (by simp [Instr.registers]) below value (exec_load a r s)

/-! ### STR (R133) -/

theorem exec_str (a r : RegIdx) (s : State) : exec (.str a r) s =
    checkRegs [a, r] s (retire .none (s.setMem (s.mem.write (effectiveAddress s r) (s.reg a)))) := rfl

/-- With both registers present and below pc 255, STR stores the one's value at the other's and
retires. -/
theorem exec_str_of_reads {s : State} {a r : RegIdx} {v addr : Byte} (readA : s.reg? a = some v)
    (readR : s.reg? r = some addr) (below : s.pc ≠ 255#8) :
    exec (.str a r) s = .next (retired .none (s.setMem (s.mem.write addr v))) := by
  have fits := (fitsRegisters_two (i := .str a r) rfl s.nreg).mpr
    ⟨State.lt_nreg_of_reg? readA, State.lt_nreg_of_reg? readR⟩
  rw [exec_str, checkRegs_pass [a, r] s _ fits, effectiveAddress_of_read readR, s.reg_of_reg? a v readA]
  exact retire_next .none _ (by decide) below

/-- Settles O29: the memory after is one canonical write, and retiring keeps all that the write leaves. -/
theorem storeWritesOneByte : Obligations.StoreWritesOneByte := by
  intro s a r
  refine ⟨encodesAs_default _, fun v addr readA readR canonical below => ?_, traps_of_missing rfl⟩
  have address := effectiveAddress_of_read readR
  have stored : (s.mem.write addr v).read addr = v := s.mem.read_write_same addr v canonical
  have others : SameMemoryExcept addr s (retired .none (s.setMem (s.mem.write addr v))) :=
    fun b other => s.mem.read_write_other addr b v other
  refine ⟨_, exec_str_of_reads readA readR below, wentOn_retired .none s _ rfl rfl rfl below,
    sameProgram_of_eq rfl rfl rfl rfl rfl rfl rfl rfl, fun _ => rfl, rfl, address, ?_⟩
  rw [address]
  exact ⟨stored, others⟩

end Sys2Proof.Machine
end

section
/-! SUPPORT. The three endings of a conditional branch, and BEZ and BNZ (R135, R136): the obligations of
44_branch.md. -/

namespace Sys2Proof.Machine

/-! ### A conditional branch (R31, R150) -/

/-- A branch not taken at pc 255 takes the pc overflow: it has no writes to keep. -/
theorem traps_of_notTaken {i : Instr} {s : State} {rank : OpField} (top : s.pc = 255#8)
    (runs : exec i s = branchIf false rank s) : Traps i s .pcOverflow :=
  runs.trans (retire_overflow .none s (by decide) top)

/-- A branch on the condition `c` ends in three ways: taken at any pc, and not taken below 255 or at
it. -/
theorem branchIf_endings {i : Instr} {s : State} {rank : OpField} {c : Prop} [Decidable c]
    (runs : exec i s = branchIf (decide c) rank s) :
    (c → JumpsTo i s s.btt[rank.toNat]) ∧
    (¬ c → s.pc ≠ 255#8 → JumpsTo i s (BitVec.ofNat 8 (s.pc.toNat + 1))) ∧
    (¬ c → s.pc = 255#8 → Traps i s .pcOverflow) := by
  refine ⟨fun holds => ?_, fun fails below => ?_, fun fails top => ?_⟩
  · rw [decide_eq_true holds] at runs
    exact jumpsTo_of_taken i s rank runs
  all_goals rw [decide_eq_false fails] at runs
  · exact jumpsTo_of_notTaken i s rank below runs
  · exact traps_of_notTaken top runs

/-! ### BEZ (R135) -/

theorem exec_bez (a : RegIdx) (rank : OpField) (s : State) :
    exec (.bez a rank) s = checkRegs [a] s (branchIf (decide (s.reg a = 0#8)) rank s) := rfl

/-- With its register present BEZ is a branch on that register's value being 0. -/
theorem exec_bez_of_read {s : State} {a : RegIdx} {p : Byte} (rank : OpField)
    (readA : s.reg? a = some p) : exec (.bez a rank) s = branchIf (decide (p = 0#8)) rank s := by
  have fits := (fitsRegisters_one (i := .bez a rank) rfl s.nreg).mpr (State.lt_nreg_of_reg? readA)
  rw [exec_bez, checkRegs_pass [a] s _ fits, s.reg_of_reg? a p readA]

/-- Settles O31: the three endings are those of a branch on `p = 0`, and a missing register is the index
fault. -/
theorem bezBranchesOnZero : Obligations.BezBranchesOnZero := by
  intro s a rank
  have fits_iff := fitsRegisters_one (i := .bez a rank) rfl s.nreg
  exact ⟨encodesAs_default _, fun p readA => branchIf_endings (exec_bez_of_read rank readA),
    fun missing => traps_of_unfit (mt fits_iff.mp missing)⟩

/-! ### BNZ (R136) -/

theorem exec_bnz (a : RegIdx) (rank : OpField) (s : State) :
    exec (.bnz a rank) s = checkRegs [a] s (branchIf (decide (s.reg a ≠ 0#8)) rank s) := rfl

/-- With its register present BNZ is a branch on that register's value not being 0. -/
theorem exec_bnz_of_read {s : State} {a : RegIdx} {p : Byte} (rank : OpField)
    (readA : s.reg? a = some p) : exec (.bnz a rank) s = branchIf (decide (p ≠ 0#8)) rank s := by
  have fits := (fitsRegisters_one (i := .bnz a rank) rfl s.nreg).mpr (State.lt_nreg_of_reg? readA)
  rw [exec_bnz, checkRegs_pass [a] s _ fits, s.reg_of_reg? a p readA]

/-- Settles O32: as BEZ, for a branch on `p ≠ 0`, which is not taken where `p = 0`. -/
theorem bnzBranchesOnNonzero : Obligations.BnzBranchesOnNonzero := by
  intro s a rank
  have fits_iff := fitsRegisters_one (i := .bnz a rank) rfl s.nreg
  refine ⟨encodesAs_default _, fun p readA => ?_,
    fun missing => traps_of_unfit (mt fits_iff.mp missing)⟩
  obtain ⟨taken, goesOn, overflows⟩ := branchIf_endings (exec_bnz_of_read rank readA)
  exact ⟨taken, fun zero => goesOn (not_not_intro zero), fun zero => overflows (not_not_intro zero)⟩

end Sys2Proof.Machine
end

section
/-! SUPPORT. The bounded field of LSL and LSR at decode, the ALU's two shifts and their fault, the
completion shared by class I, and shifts (R139 to R142): the obligations of 45_shift.md. -/

namespace Sys2Proof.Machine

/-! ### The bounded field of LSL and LSR (R93) -/

/-- The operands of LSL and LSR are rejected where the field is above 7. -/
theorem decodeOperands_largeShift {k : Mnemonic} {asel : RegIdx} {f : OpField}
    (isShift : k = .lsl ∨ k = .lsr) (large : 7 < f.toNat) :
    decodeOperands k asel f = .error .shiftOutOfRange := by
  cases isShift with
  | inl isLsl => subst isLsl; exact if_neg (Nat.not_le.mpr large)
  | inr isLsr => subst isLsr; exact if_neg (Nat.not_le.mpr large)

/-- The opcode of LSL or LSR is decoded to that mnemonic, which rejects a large field. -/
theorem shiftFieldBounded_of_isShift {k : Mnemonic} (isShift : k = .lsl ∨ k = .lsr) :
    ShiftFieldBounded (OpcodeMap.default.code k) := by
  intro e hasCode large
  rw [decode, hasCode, OpcodeMap.mnemonic?_code _ opcodeMap_default_valid]
  exact decodeOperands_largeShift isShift large

/-! ### The ALU's shifts (R49) -/

/-- Shifting left multiplies by a power of two, and narrowing the product to a byte is reducing it
modulo 256 (R18). -/
theorem alu_shl_of_le {p q : Byte} (h : q.toNat ≤ 7) :
    alu .shl p q = aluValue (BitVec.ofNat 8 (p.toNat * 2 ^ q.toNat % 256)) := by
  have narrows : BitVec.ofNat 8 (p.toNat * 2 ^ q.toNat % 256) = BitVec.ofNat 8 (p.toNat <<< q.toNat) :=
    BitVec.eq_of_toNat_eq (by simp [Nat.shiftLeft_eq])
  rw [narrows]
  exact if_neg (Nat.not_lt.mpr h)

/-- Shifting right divides by a power of two. -/
theorem alu_shr_of_le {p q : Byte} (h : q.toNat ≤ 7) :
    alu .shr p q = aluValue (BitVec.ofNat 8 (p.toNat / 2 ^ q.toNat)) := by
  rw [← Nat.shiftRight_eq_div_pow]
  exact if_neg (Nat.not_lt.mpr h)

/-- An amount above 7 is the ALU's shift fault, to the left. -/
theorem alu_shl_of_gt {p q : Byte} (h : 7 < q.toNat) : alu .shl p q = .error .shiftOutOfRange := if_pos h

/-- An amount above 7 is the ALU's shift fault, to the right. -/
theorem alu_shr_of_gt {p q : Byte} (h : 7 < q.toNat) : alu .shr p q = .error .shiftOutOfRange := if_pos h

/-! ### The immediate form of class I, and the ALU's fault in the register form of class R (R88) -/

/-- A class-I instruction whose ALU operation gives a value without overflow completes with it in its
register. -/
theorem completesWith_of_aluImmediate {i : Instr} {s : State} {op : AluOp} {a : RegIdx} {imm : OpField}
    {p v : Byte} (names : i.registers = [a]) (runs : exec i s = aluImmediate op a imm s)
    (readA : s.reg? a = some p) (below : s.pc ≠ 255#8) (value : alu op p (immediate imm) = aluValue v) :
    CompletesWith i s a v s.ovf := by
  rw [aluImmediate_of_read op imm readA, ← names] at runs
  exact completesWith_of_aluValue ((fitsRegisters_one names _).mpr (State.lt_nreg_of_reg? readA))
    (by simp [names]) below value runs

/-- A class-R instruction whose ALU operation faults takes that fault and writes nothing, at every pc. -/
theorem traps_of_aluRegister {i : Instr} {s : State} {op : AluOp} {a r : RegIdx} {p q : Byte}
    {reason : FaultReason} (names : i.registers = [a, r]) (runs : exec i s = aluRegister op a r s)
    (readA : s.reg? a = some p) (readR : s.reg? r = some q) (fault : alu op p q = .error reason) :
    Traps i s reason := by
  rw [aluRegister_of_reads op readA readR, ← names] at runs
  exact traps_of_aluError
    ((fitsRegisters_two names _).mpr ⟨State.lt_nreg_of_reg? readA, State.lt_nreg_of_reg? readR⟩)
    fault runs

/-- An instruction that names one register, and that one missing, takes the index fault. -/
theorem traps_of_missingOne {i : Instr} {s : State} {a : RegIdx} (names : i.registers = [a])
    (missing : ¬ a.toNat < s.nreg) : Traps i s .registerIndexOutOfBounds :=
  traps_of_unfit (mt (fitsRegisters_one names _).mp missing)

/-! ### LSL and LSR (R139, R140) -/

theorem exec_lsl (a : RegIdx) (imm : OpField) (s : State) :
    exec (.lsl a imm) s = aluImmediate .shl a imm s := rfl

theorem exec_lsr (a : RegIdx) (imm : OpField) (s : State) :
    exec (.lsr a imm) s = aluImmediate .shr a imm s := rfl

/-- Settles O34: the decoder bounds the field, and within the bound the ALU shifts by the byte of the
immediate. -/
theorem immediateShifts : Obligations.ImmediateShifts := by
  refine ⟨shiftFieldBounded_of_isShift (k := .lsl) (.inl rfl),
    shiftFieldBounded_of_isShift (k := .lsr) (.inr rfl), fun s a imm =>
    ⟨⟨encodesAs_default _, encodesAs_default _⟩, fun p readA small below => ?_,
      fun missing => ⟨traps_of_missingOne rfl missing, traps_of_missingOne rfl missing⟩⟩⟩
  rw [← immediate_toNat imm] at small ⊢
  exact
    ⟨completesWith_of_aluImmediate rfl (exec_lsl a imm s) readA below (alu_shl_of_le small),
     completesWith_of_aluImmediate rfl (exec_lsr a imm s) readA below (alu_shr_of_le small)⟩

/-! ### LSLR and LSRR (R141, R142) -/

theorem exec_lslr (a r : RegIdx) (s : State) : exec (.lslr a r) s = aluRegister .shl a r s := rfl

theorem exec_lsrr (a r : RegIdx) (s : State) : exec (.lsrr a r) s = aluRegister .shr a r s := rfl

/-- Settles O35: the second register's value decides between the ALU's shift and its shift fault. -/
theorem registerShifts : Obligations.RegisterShifts := by
  intro s a r
  refine ⟨⟨encodesAs_default _, encodesAs_default _⟩, fun p n readA readR => ⟨fun small below => ?_,
    fun large => ?_⟩, fun missing => ⟨traps_of_missing rfl missing, traps_of_missing rfl missing⟩⟩
  · exact
      ⟨completesWith_of_aluRegister rfl (exec_lslr a r s) readA readR below (alu_shl_of_le small),
       completesWith_of_aluRegister rfl (exec_lsrr a r s) readA readR below (alu_shr_of_le small)⟩
  · exact ⟨traps_of_aluRegister rfl (exec_lslr a r s) readA readR (alu_shl_of_gt large),
      traps_of_aluRegister rfl (exec_lsrr a r s) readA readR (alu_shr_of_gt large)⟩

end Sys2Proof.Machine
end

section
/-! SUPPORT. The system instructions HALT, GOV and COV (R143 to R145): the obligations of 46_system.md. -/

namespace Sys2Proof.Machine

/-! ### HALT (R143) -/

theorem exec_halt (s : State) : exec .halt s = .next s.halt := rfl

/-- A halted state is not running. -/
theorem State.halt_not_running (s : State) : s.halt.status ≠ .running := by simp

/-- Settles O36: HALT names no register and does not retire, so no state makes it fault; a state that is
not running has no step and is reported. -/
theorem haltEndsTheRun : Obligations.HaltEndsTheRun :=
  ⟨encodesAs_default _, reservedUnlessZero_of_classN (k := .halt) rfl, fun s =>
    ⟨s.halt, exec_halt s, rfl, step_of_not_running s.halt s.halt_not_running,
      report_of_not_running s.halt s.halt_not_running⟩⟩

/-! ### GOV (R144) -/

theorem exec_gov (s : State) : exec .gov s =
    checkRegs [0#4] s (writeAlu 0#4 (alu .pass s.acc (boolByte s.ovf)) s) := rfl

/-- Settles O37: the ALU passes the flag's byte to the accumulator, with no overflow of its own to change
the flag. -/
theorem govCopiesFlag : Obligations.GovCopiesFlag := by
  refine ⟨encodesAs_default _, reservedUnlessZero_of_classN (k := .gov) rfl, fun s hasAcc below => ?_⟩
  have fits := (fitsRegisters_one (i := .gov) rfl s.nreg).mpr hasAcc
  have value : alu .pass s.acc (boolByte s.ovf) = aluValue (if s.ovf then 1#8 else 0#8) := alu_pass _ _
  exact completesWith_of_aluValue fits (by simp [Instr.registers]) below value (exec_gov s)

/-! ### COV (R145) -/

theorem exec_cov (s : State) : exec .cov s = retire .none (s.setOvf false) := rfl

/-- Below pc 255 COV retires the state it cleared the flag of. -/
theorem exec_cov_of_below {s : State} (below : s.pc ≠ 255#8) :
    exec .cov s = .next (retired .none (s.setOvf false)) :=
  (exec_cov s).trans (retire_next .none (s.setOvf false) (by decide) below)

/-- Settles O38: retiring keeps the cleared flag and all that COV leaves; that no other instruction clears
it is the sticky flag of R34. -/
theorem covClearsFlag : Obligations.CovClearsFlag := by
  refine ⟨encodesAs_default _, reservedUnlessZero_of_classN (k := .cov) rfl, fun s below => ?_,
    fun s t steps set cleared => ?_⟩
  · exact ⟨_, exec_cov_of_below below, wentOn_retired .none s _ rfl rfl rfl below,
      sameProgram_of_eq rfl rfl rfl rfl rfl rfl rfl rfl, fun _ => rfl, fun _ => rfl, rfl⟩
  · obtain ⟨staysSetOrCov, -⟩ := overflowFlagIsSticky s t steps
    exact (staysSetOrCov set).resolve_left (by simp [cleared])

end Sys2Proof.Machine
end

section
/-! SUPPORT. Where a step takes the fetch fault (R47, R149): an obligation of 60_exceptions.md. -/

namespace Sys2Proof.Machine

/-- A decoder rejection is none of the sequencer's own faults, the fetch fault among them. -/
theorem decodeReason_ne_fetchOutOfRange (d : DecodeFault) : decodeReason d ≠ .fetchOutOfRange := by
  cases d <;> decide

/-- Fetch and decode give the fetch fault exactly where `pc >= L`: a fetched entry can only be rejected
by the decoder, for a reason of its own. -/
theorem fetchDecode_eq_fetchOutOfRange_iff (s : State) :
    fetchDecode s = .error .fetchOutOfRange ↔ s.imem.length ≤ s.pc.toNat := by
  refine ⟨fun faults => ?_, fun past => by simp [fetchDecode, fetch_out_of_range s past]⟩
  rcases fetchDecode_cases s with ⟨past, -⟩ | ⟨e, d, -, -, rejected⟩ | ⟨e, i, -, -, decoded⟩
  · exact past
  · exact absurd (Except.error.inj (rejected.symm.trans faults)) (decodeReason_ne_fetchOutOfRange d)
  · cases decoded.symm.trans faults

/-- A running machine takes a fault of fetch and decode with all else unchanged (R53). -/
theorem step_of_fetchDecode_error {s : State} {r : FaultReason} (running : s.status = .running)
    (faults : fetchDecode s = .error r) : step s = .next (s.raiseFault r) := by
  simp [step_of_running s running, stepRunning, faults]

/-- An instruction's own effect leaves the status. -/
theorem Effect.status_eq {s u : State} {i : Instr} {sig : Signal} (h : Effect s i sig u) :
    u.status = s.status := by
  cases h with
  | register | sum | store | notTaken | taken | clear => simp

/-- No ending of a running machine's instruction is the fetch fault: it faults for another reason, halts,
or keeps the status. -/
theorem Ended.status_ne_fetchOutOfRange {s t : State} {i : Instr} (h : Ended s i t)
    (running : s.status = .running) : t.status ≠ .faulted .fetchOutOfRange := by
  cases h with
  | badIndex _ is | underflow _ _ is | badShift _ _ is | pcOverflow _ _ _ _ _ _ is | halted _ is => simp [is]
  | wentOn _ _ _ effect _ _ is | branched _ _ effect is => simp [is, effect.status_eq, running]

/-- Settles O11: the fetch fault comes from fetch alone, so a step that ends in it started with
`pc >= L`. -/
theorem fetchPastEndFaults : Obligations.FetchPastEndFaults := by
  intro s running
  have fetchFaults := fetchDecode_eq_fetchOutOfRange_iff s
  refine ⟨fun past => step_of_fetchDecode_error running (fetchFaults.mpr past),
    fun inside t steps ended => ?_⟩
  obtain ⟨-, ⟨r, faults, rfl⟩ | ⟨i, -, -, ending⟩⟩ := step_cases s t steps
  · obtain rfl : r = .fetchOutOfRange := Status.faulted.inj ended
    exact absurd (fetchFaults.mp faults) inside.not_ge
  · exact ending.status_ne_fetchOutOfRange running ended

end Sys2Proof.Machine
end

section
/-! SUPPORT. What the decoder accepts and what it rejects, and that the encoder is its inverse (R85 to R99):
the obligations of 30_encoding.md on words. -/

namespace Sys2Proof

/-! ### Decoding what was encoded (R91, R99) -/

/-- The per-constructor laws put together: an instruction's own fields decode to it. -/
theorem operandsDecode (i : Instr) : Laws.OperandsDecode.Statement i := by
  cases i with
  | ass a imm => exact Laws.OperandsDecode.ass a imm
  | movf a r => exact Laws.OperandsDecode.movf a r
  | movt a r => exact Laws.OperandsDecode.movt a r
  | add a r => exact Laws.OperandsDecode.add a r
  | addi a imm => exact Laws.OperandsDecode.addi a imm
  | sub a r => exact Laws.OperandsDecode.sub a r
  | subi a imm => exact Laws.OperandsDecode.subi a imm
  | not => exact Laws.OperandsDecode.not
  | and a r => exact Laws.OperandsDecode.and a r
  | or a r => exact Laws.OperandsDecode.or a r
  | gt a r => exact Laws.OperandsDecode.gt a r
  | lt a r => exact Laws.OperandsDecode.lt a r
  | ge a r => exact Laws.OperandsDecode.ge a r
  | le a r => exact Laws.OperandsDecode.le a r
  | eq a r => exact Laws.OperandsDecode.eq a r
  | load a r => exact Laws.OperandsDecode.load a r
  | str a r => exact Laws.OperandsDecode.str a r
  | cfb => exact Laws.OperandsDecode.cfb
  | bez a rank => exact Laws.OperandsDecode.bez a rank
  | bnz a rank => exact Laws.OperandsDecode.bnz a rank
  | b a rank => exact Laws.OperandsDecode.b a rank
  | lsl a imm => exact Laws.OperandsDecode.lsl a imm
  | lsr a imm => exact Laws.OperandsDecode.lsr a imm
  | lslr a r => exact Laws.OperandsDecode.lslr a r
  | lsrr a r => exact Laws.OperandsDecode.lsrr a r
  | halt => exact Laws.OperandsDecode.halt
  | gov => exact Laws.OperandsDecode.gov
  | cov => exact Laws.OperandsDecode.cov

@[simp] theorem opcodeField_encodeWord (m : OpcodeMap) (i : Instr) :
    opcodeField (encodeWord m i) = m.code i.mnemonic := opcodeField_append _ _

@[simp] theorem fieldOf_encodeWord (m : OpcodeMap) (i : Instr) :
    fieldOf (encodeWord m i) = i.operandField := fieldOf_append _ _

/-- Where a mnemonic has the opcode, decoding is decoding its operands. -/
theorem decode_of_code {m : OpcodeMap} (valid : m.Valid) {e : Entry} {k : Mnemonic}
    (hasCode : opcodeField e.word = m.code k) : decode m e = decodeOperands k e.asel (fieldOf e.word) := by
  rw [decode, hasCode, m.mnemonic?_code valid]

/-- Settles O1: the opcode field names the instruction's mnemonic, whose operand forms read the fields
back. -/
theorem decodeEncodeAgree : Obligations.DecodeEncodeAgree := by
  intro m i valid wellFormed
  rw [decode_of_code valid (e := encode m i) (opcodeField_encodeWord m i)]
  simpa [encode] using operandsDecode i wellFormed

/-! ### What decodes (R91 to R93) -/

/-- What decodes had a mnemonic for its opcode, and the operands of that mnemonic decoded. -/
theorem decode_ok {m : OpcodeMap} {e : Entry} {i : Instr} (decoded : decode m e = .ok i) :
    ∃ k, m.mnemonic? (opcodeField e.word) = some k ∧
      decodeOperands k e.asel (fieldOf e.word) = .ok i := by
  rw [decode] at decoded
  split at decoded
  · cases decoded
  next k found => exact ⟨k, found, decoded⟩

/-- A class-N entry that decodes has zero operands. -/
theorem decodeNone_ok {asel : RegIdx} {f : OpField} {i j : Instr} (decoded : decodeNone asel f i = .ok j) :
    j = i ∧ f = 0#4 ∧ asel = 0#4 := by
  rw [decodeNone] at decoded
  split at decoded
  next zero => cases decoded; exact ⟨rfl, zero⟩
  next => cases decoded

/-- An LSL or LSR entry that decodes has a field within its bound. -/
theorem decodeShift_ok {f : OpField} {i j : Instr} (decoded : decodeShift f i = .ok j) :
    j = i ∧ f.toNat ≤ 7 := by
  rw [decodeShift] at decoded
  split at decoded
  next small => cases decoded; exact ⟨rfl, small⟩
  next => cases decoded

/-- Decoded operands are all there is in the entry, and they are in the instruction's range: class N has
none, LSL and LSR bound theirs, and every other mnemonic keeps both as they are. -/
theorem decodeOperands_ok {k : Mnemonic} {asel : RegIdx} {f : OpField} {i : Instr}
    (decoded : decodeOperands k asel f = .ok i) :
    i.mnemonic = k ∧ i.firstOperand = asel ∧ i.operandField = f ∧ i.WellFormed := by
  cases k with
  | not | cfb | halt | gov | cov =>
    obtain ⟨rfl, rfl, rfl⟩ := decodeNone_ok decoded
    exact ⟨rfl, rfl, rfl, by decide⟩
  | lsl | lsr =>
    obtain ⟨rfl, small⟩ := decodeShift_ok decoded
    exact ⟨rfl, rfl, rfl, fun _ => small⟩
  | _ =>
    cases decoded
    exact ⟨rfl, rfl, rfl, by simp [Instr.WellFormed, Instr.mnemonic]⟩

/-- Settles O2: the mnemonic's value is the opcode field, and the fields are the instruction's. -/
theorem encodeDecodeAgree : Obligations.EncodeDecodeAgree := by
  intro m e i decoded
  obtain ⟨k, found, operands⟩ := decode_ok decoded
  obtain ⟨rfl, first, field, wellFormed⟩ := decodeOperands_ok operands
  refine ⟨wellFormed, ?_⟩
  rw [encode, encodeWord, first, field, m.code_of_mnemonic? found, opcodeField_append_fieldOf]

/-! ### What does not decode (R90, R92, R93) -/

/-- A class-N entry is rejected only for nonzero operands. -/
theorem decodeNone_error {asel : RegIdx} {f : OpField} {i : Instr} {d : DecodeFault}
    (rejected : decodeNone asel f i = .error d) :
    d = .reservedOperandField ∧ ¬ (f = 0#4 ∧ asel = 0#4) := by
  rw [decodeNone] at rejected
  split at rejected
  next => cases rejected
  next nonzero => cases rejected; exact ⟨rfl, nonzero⟩

/-- An LSL or LSR entry is rejected only for a field above its bound. -/
theorem decodeShift_error {f : OpField} {i : Instr} {d : DecodeFault}
    (rejected : decodeShift f i = .error d) : d = .shiftOutOfRange ∧ 7 < f.toNat := by
  rw [decodeShift] at rejected
  split at rejected
  next => cases rejected
  next large => cases rejected; exact ⟨rfl, Nat.lt_of_not_le large⟩

/-- Operands are rejected for class N and for LSL and LSR only. -/
theorem decodeOperands_error {k : Mnemonic} {asel : RegIdx} {f : OpField} {d : DecodeFault}
    (rejected : decodeOperands k asel f = .error d) :
    (d = .reservedOperandField ∧ k.operandClass = .none ∧ ¬ (f = 0#4 ∧ asel = 0#4)) ∨
    (d = .shiftOutOfRange ∧ (k = .lsl ∨ k = .lsr) ∧ 7 < f.toNat) := by
  cases k with
  | not | cfb | halt | gov | cov =>
    obtain ⟨reason, nonzero⟩ := decodeNone_error rejected
    exact .inl ⟨reason, rfl, nonzero⟩
  | lsl | lsr =>
    obtain ⟨reason, large⟩ := decodeShift_error rejected
    exact .inr ⟨reason, by simp, large⟩
  | _ => cases rejected

/-- Every rejection: of the opcode, or of a known mnemonic's operands. -/
theorem decode_error {m : OpcodeMap} {e : Entry} {d : DecodeFault} (rejected : decode m e = .error d) :
    (d = .illegalOpcode ∧ m.mnemonic? (opcodeField e.word) = none) ∨
    ∃ k, opcodeField e.word = m.code k ∧ decodeOperands k e.asel (fieldOf e.word) = .error d := by
  rw [decode] at rejected
  split at rejected
  next unknown => cases rejected; exact .inl ⟨rfl, unknown⟩
  next k found => exact .inr ⟨k, (m.code_of_mnemonic? found).symm, rejected⟩

/-! ### The illegal opcodes (R90) -/

/-- The opcode is illegal exactly when no mnemonic has its value. -/
theorem decode_illegalOpcode_iff (m : OpcodeMap) (e : Entry) :
    decode m e = .error .illegalOpcode ↔ ∀ k, m.code k ≠ opcodeField e.word := by
  rw [← m.mnemonic?_eq_none]
  refine ⟨fun rejected => ?_, fun unknown => by rw [decode, unknown]⟩
  rcases decode_error rejected with ⟨-, unknown⟩ | ⟨k, -, operands⟩
  · exact unknown
  · rcases decodeOperands_error operands with ⟨reason, -⟩ | ⟨reason, -⟩ <;> cases reason

/-- The values an admissible map may use, [1,28] (R14). -/
def legalOpcodes : List Opcode := (List.range 28).map fun k => BitVec.ofNat 5 (k + 1)

theorem mem_legalOpcodes_iff (o : Opcode) : o ∈ legalOpcodes ↔ 1 ≤ o.toNat ∧ o.toNat ≤ 28 := by
  revert o
  decide

/-- 28 distinct values in [1,28] are all of them, so every legal value is some mnemonic's. -/
theorem OpcodeMap.mem_codes_iff {m : OpcodeMap} (valid : m.Valid) (o : Opcode) :
    o ∈ Mnemonic.all.map m.code ↔ o ∈ legalOpcodes := by
  obtain ⟨distinct, inRange⟩ := valid
  have within : Mnemonic.all.map m.code ⊆ legalOpcodes := by
    intro v hv
    obtain ⟨k, hk, rfl⟩ := List.mem_map.mp hv
    exact (mem_legalOpcodes_iff _).mpr (inRange k hk)
  exact ((distinct.subperm within).perm_of_length_le (by simp [legalOpcodes, Mnemonic.all])).mem_iff

/-- The 5-bit values outside [1,28]. -/
theorem not_mem_legalOpcodes_iff (o : Opcode) :
    o ∉ legalOpcodes ↔ o ∈ ([0, 29, 30, 31] : List Opcode) := by
  revert o
  decide

/-- Settles O3: the mnemonics' values are all of [1,28], and four values are left over. -/
theorem illegalOpcodesAreFour : Obligations.IllegalOpcodesAreFour := by
  intro m e valid
  rw [decode_illegalOpcode_iff, ← not_mem_legalOpcodes_iff, ← m.mem_codes_iff valid]
  simp [Mnemonic.mem_all]

/-! ### Reserved fields and large shifts (R92, R93) -/

/-- A class-N instruction has no operand, and its encoding has zeros for it (R99). -/
theorem Instr.operands_of_classN {i : Instr} (classN : i.mnemonic.operandClass = .none) :
    i.operandField = 0#4 ∧ i.firstOperand = 0#4 := by
  cases i with
  | not | cfb | halt | gov | cov => exact ⟨rfl, rfl⟩
  | _ => cases classN

/-- Exactly the class-N entries with nonzero operands are rejected as reserved. -/
theorem decode_reserved_iff {m : OpcodeMap} (valid : m.Valid) (e : Entry) :
    decode m e = .error .reservedOperandField ↔
      ∃ k : Mnemonic, k.operandClass = .none ∧ opcodeField e.word = m.code k ∧
        ¬ (fieldOf e.word = 0#4 ∧ e.asel = 0#4) := by
  constructor
  · intro rejected
    rcases decode_error rejected with ⟨reason, -⟩ | ⟨k, hasCode, operands⟩
    · cases reason
    · rcases decodeOperands_error operands with ⟨-, classN, nonzero⟩ | ⟨reason, -⟩
      · exact ⟨k, classN, hasCode, nonzero⟩
      · cases reason
  · rintro ⟨k, classN, hasCode, nonzero⟩
    exact (decode_of_code valid hasCode).trans (Machine.decodeOperands_reserved classN nonzero)

/-- Settles O4: an encoded class-N instruction has zero operands, so the encoder makes no such entry. -/
theorem reservedFieldIsClassN : Obligations.ReservedFieldIsClassN := by
  intro m e valid
  refine ⟨decode_reserved_iff valid e, fun i rejected => ?_⟩
  obtain ⟨k, classN, hasCode, nonzero⟩ := (decode_reserved_iff valid _).mp rejected
  obtain rfl : i.mnemonic = k := m.code_injective valid ((opcodeField_encodeWord m i).symm.trans hasCode)
  exact nonzero (by simpa [encode] using Instr.operands_of_classN classN)

/-- Settles O5: only LSL and LSR bound their field. -/
theorem decoderRejectsLargeShifts : Obligations.DecoderRejectsLargeShifts := by
  intro m e valid
  constructor
  · intro rejected
    rcases decode_error rejected with ⟨reason, -⟩ | ⟨k, hasCode, operands⟩
    · cases reason
    · rcases decodeOperands_error operands with ⟨reason, -⟩ | ⟨-, rfl | rfl, large⟩
      · cases reason
      · exact ⟨.inl hasCode, large⟩
      · exact ⟨.inr hasCode, large⟩
  · rintro ⟨hasCode | hasCode, large⟩
    · exact (decode_of_code valid hasCode).trans (Machine.decodeOperands_largeShift (.inl rfl) large)
    · exact (decode_of_code valid hasCode).trans (Machine.decodeOperands_largeShift (.inr rfl) large)

/-! ### Single words (R17, R89, R98) -/

/-- Settles O6: the 512 words evaluated. Of the 28 legal opcodes each of the five of class N has 1 legal
field of 16, LSL and LSR have 8, and the other 21 have 16; the four illegal opcodes have none. -/
theorem bareWordCounts : Obligations.BareWordCounts := by
  unfold Obligations.BareWordCounts
  decide +kernel

/-- Settles O7: each word is fixed, and decoding evaluates. -/
theorem sampleWordsDecode : Obligations.SampleWordsDecode :=
  ⟨rfl, rfl, rfl, rfl, rfl, rfl, rfl⟩

/-- Settles O8: the numbering is a fact about each of the 28 mnemonics. -/
theorem defaultMapNumbering : Obligations.DefaultMapNumbering :=
  ⟨Machine.opcodeMap_default_valid, by decide⟩

/-- Settles O9: the most significant bit at place `k` is the bit `8 - k`. -/
theorem wordTextIsMsbFirst : Obligations.WordTextIsMsbFirst := by
  intro w
  refine ⟨by simp [wordText], fun k hk => ?_⟩
  have bit : w.getMsbD k = w.getLsbD (8 - k) := by simp [BitVec.getMsbD, hk]
  rw [wordText, List.getElem?_map, List.getElem?_range hk, Option.map_some, bit]

end Sys2Proof
end

section
/-! SUPPORT. What an instruction's own effect leaves, and with it what every step keeps: the program, the
memory but for STR, the pc's movement and the trace (R31, R36, R37, R55 to R57, R65, R68). -/

namespace Sys2Proof.Machine

/-! ### What an effect leaves (R174) -/

/-- An effect changes neither the image nor the parameters (R36, R37, R65). -/
theorem Effect.sameProgram {s u : State} {i : Instr} {sig : Signal} (h : Effect s i sig u) :
    SameProgram s u := by
  cases h with
  | register d v | sum d v => exact ⟨rfl, rfl, rfl, rfl, rfl, rfl, rfl, State.nreg_setReg s d v⟩
  | store | notTaken | taken | clear => exact ⟨rfl, rfl, rfl, rfl, rfl, rfl, rfl, rfl⟩

/-- An effect appends nothing to the trace. -/
theorem Effect.trace_eq {s u : State} {i : Instr} {sig : Signal} (h : Effect s i sig u) :
    u.trace = s.trace := by
  cases h with
  | register | sum | store | notTaken | taken | clear => rfl

/-- An effect leaves the data memory, but for that of STR (R68). -/
theorem Effect.mem_cases {s u : State} {i : Instr} {sig : Signal} (h : Effect s i sig u) :
    u.mem = s.mem ∨ ∃ a r, i = .str a r ∧ u.mem = s.mem.write (effectiveAddress s r) (s.reg a) := by
  cases h with
  | register | sum | notTaken | taken | clear => exact .inl rfl
  | store a r stores => exact .inr ⟨a, r, stores, rfl⟩

/-! ### What an ending leaves -/

/-- States with the same registers, image and parameters have the same program. -/
theorem SameProgram.trans_eq {s u t : State} (h : SameProgram s u) (regs : t.regs = u.regs)
    (imem : t.imem = u.imem) (btt : t.btt = u.btt) (nlab : t.nlab = u.nlab) (dbg : t.dbg = u.dbg)
    (opcodeMap : t.opcodeMap = u.opcodeMap) (memMin : t.memMin = u.memMin)
    (memMax : t.memMax = u.memMax) : SameProgram s t :=
  ⟨imem.trans h.imem, btt.trans h.btt, nlab.trans h.nlab, dbg.trans h.dbg,
    opcodeMap.trans h.opcodeMap, memMin.trans h.memMin, memMax.trans h.memMax,
    (State.nreg_congr u t regs).trans h.nreg⟩

theorem sameProgram_refl (s : State) : SameProgram s s := ⟨rfl, rfl, rfl, rfl, rfl, rfl, rfl, rfl⟩

/-- Taking a fault keeps the program. -/
theorem SameProgram.raiseFault {s u : State} (h : SameProgram s u) (r : FaultReason) :
    SameProgram s (u.raiseFault r) := h.trans_eq rfl rfl rfl rfl rfl rfl rfl rfl

/-- Every ending keeps the program: faults, halting, the pc, the flag and the trace are no part of it. -/
theorem Ended.sameProgram {s t : State} {i : Instr} (h : Ended s i t) : SameProgram s t := by
  cases h with
  | badIndex _ is | underflow _ _ is | badShift _ _ is =>
    exact is ▸ (sameProgram_refl s).raiseFault _
  | halted _ is => exact is ▸ (sameProgram_refl s).trans_eq rfl rfl rfl rfl rfl rfl rfl rfl
  | pcOverflow _ _ u effect _ _ is => exact is ▸ effect.sameProgram.raiseFault _
  | branched _ u effect is => exact is ▸ effect.sameProgram.trans_eq rfl rfl rfl rfl rfl rfl rfl rfl
  | wentOn _ sig u effect _ _ is =>
    subst is
    apply effect.sameProgram.trans_eq <;> simp

/-- Every ending has the memory that the instruction's effect left, or the one before. -/
theorem Ended.mem_cases {s t : State} {i : Instr} (h : Ended s i t) :
    t.mem = s.mem ∨ ∃ a r, i = .str a r ∧ t.mem = s.mem.write (effectiveAddress s r) (s.reg a) := by
  cases h with
  | badIndex _ is | underflow _ _ is | badShift _ _ is | halted _ is => exact .inl (by simp [is])
  | pcOverflow _ _ u effect _ _ is | branched _ u effect is | wentOn _ _ u effect _ _ is =>
    simpa [is] using effect.mem_cases

/-! ### What every step keeps -/

/-- Settles O42: a step takes a fault or ends an instruction, and both keep the program. -/
theorem programIsReadOnly : Obligations.ProgramIsReadOnly := by
  intro s t steps
  obtain ⟨-, ⟨r, -, rfl⟩ | ⟨i, -, -, ending⟩⟩ := step_cases s t steps
  · exact (sameProgram_refl s).raiseFault r
  · exact ending.sameProgram

/-- Settles O43: of all effects only that of STR writes the memory. -/
theorem onlyStoreChangesMemory : Obligations.OnlyStoreChangesMemory := by
  intro s t steps noStore addr
  obtain ⟨-, ⟨r, -, rfl⟩ | ⟨i, decoded, -, ending⟩⟩ := step_cases s t steps
  · rfl
  · rcases ending.mem_cases with same | ⟨a, r, rfl, -⟩
    · rw [same]
    · exact absurd decoded (noStore a r)

/-! ### How a step leaves the status, the pc and the trace -/

/-- A branch checks its registers and then branches to its own entry of the table. -/
theorem exec_branch {i : Instr} (branches : i.mnemonic.operandClass = .branch) (s : State) :
    ∃ taken, exec i s = checkRegs i.registers s (branchIf taken i.operandField s) := by
  cases i with
  | bez a rank => exact ⟨_, rfl⟩
  | bnz a rank => exact ⟨_, rfl⟩
  | b a rank => exact ⟨true, rfl⟩
  | _ => cases branches

/-- Every way a step of a running machine leaves the status, the pc and the trace. -/
inductive StepEnd (s t : State) : Prop where
  /-- The run ended with nothing else changed: a fault before any write, or HALT. -/
  | stopped (r : Status) (ended : r ≠ .running) (noOverflow : r ≠ .faulted .pcOverflow)
      (is : t = { s with status := r })
  | overflowed (status : t.status = .faulted .pcOverflow) (top : s.pc = 255#8) (stays : t.pc = 255#8)
      (quiet : t.trace = s.trace)
  | wentOn (status : t.status = .running) (goesOn : WentOn s t)
  | jumped (status : t.status = .running) (i : Instr) (decoded : fetchDecode s = .ok i)
      (branches : i.mnemonic.operandClass = .branch)
      (goesTo : WentTo s.btt[i.operandField.toNat] s t)

/-- A fault other than the pc overflow, taken with all else unchanged, stops the run. -/
theorem StepEnd.of_raiseFault (s : State) {r : FaultReason} (noOverflow : r ≠ .pcOverflow) :
    StepEnd s (s.raiseFault r) :=
  .stopped (.faulted r) (by simp) (fun same => noOverflow (Status.faulted.inj same)) rfl

/-- Retiring without a branch overflows the pc or goes on by 1. -/
theorem StepEnd.of_retire {s u t : State} {sig : Signal} (running : s.status = .running)
    (noBranch : sig ≠ .branch) (pc : u.pc = s.pc) (status : u.status = s.status)
    (trace : u.trace = s.trace) (retires : retire sig u = .next t) : StepEnd s t := by
  rcases retire_cases sig u with ⟨-, top, is⟩ | ⟨-, below, is⟩ | ⟨branch, -⟩
  · cases is.symm.trans retires
    exact .overflowed rfl (pc ▸ top) top trace
  · cases is.symm.trans retires
    have goesOn : WentOn s (retired sig u) := wentOn_retired sig s u pc status trace (pc ▸ below)
    exact .wentOn (goesOn.status.trans running) goesOn
  · exact absurd branch noBranch

/-- A branch with its registers present jumps, overflows the pc or goes on by 1. -/
theorem StepEnd.of_branchIf {s t : State} {i : Instr} {taken : Bool} (running : s.status = .running)
    (decoded : fetchDecode s = .ok i) (branches : i.mnemonic.operandClass = .branch)
    (runs : branchIf taken i.operandField s = .next t) : StepEnd s t := by
  cases taken with
  | false => exact .of_retire (sig := .none) running (by simp) rfl rfl rfl runs
  | true =>
    cases runs
    refine .jumped running i decoded branches ⟨rfl, rfl, ?_⟩
    rw [Traced, emitTrace_events]
    rfl

/-- The endings of an instruction by status, pc and trace. -/
theorem Ended.stepEnd {s t : State} {i : Instr} (h : Ended s i t) (running : s.status = .running)
    (decoded : fetchDecode s = .ok i) (runs : exec i s = .next t) : StepEnd s t := by
  cases h with
  | badIndex _ is | underflow _ _ is | badShift _ _ is => exact is ▸ .of_raiseFault s (by simp)
  | halted _ is => exact .stopped .halted (by simp) (by simp) is
  | pcOverflow _ sig u effect noBranch top is =>
    have retires := is ▸ retire_overflow sig u noBranch ((effect.pc_eq noBranch).trans top)
    exact .of_retire running noBranch (effect.pc_eq noBranch) effect.status_eq effect.trace_eq retires
  | wentOn _ sig u effect noBranch below is =>
    have pc := effect.pc_eq noBranch
    have retires := retire_next sig u noBranch (pc ▸ below)
    rw [pc, ← is] at retires
    exact .of_retire running noBranch pc effect.status_eq effect.trace_eq retires
  | branched fits u effect is =>
    cases effect with
    | taken rank branches =>
      obtain ⟨taken, form⟩ := exec_branch branches s
      rw [checkRegs_pass _ _ _ fits] at form
      exact .of_branchIf running decoded branches (form.symm.trans runs)

/-- Fetch and decode have faults of their own: the pc overflow is none of them. -/
theorem fetchDecode_ne_pcOverflow (s : State) : fetchDecode s ≠ .error .pcOverflow := by
  intro faults
  rcases fetchDecode_cases s with ⟨-, h⟩ | ⟨e, d, -, -, h⟩ | ⟨e, i, -, -, h⟩
  · cases h.symm.trans faults
  · have reason := Except.error.inj (h.symm.trans faults)
    cases d <;> cases reason
  · cases h.symm.trans faults

/-- Every step ends in one of the ways of `StepEnd`. -/
theorem step_stepEnd {s t : State} (steps : step s = .next t) : StepEnd s t := by
  obtain ⟨running, ⟨r, faults, rfl⟩ | ⟨i, decoded, runs, ending⟩⟩ := step_cases s t steps
  · exact .of_raiseFault s fun overflow => fetchDecode_ne_pcOverflow s (overflow ▸ faults)
  · exact ending.stepEnd running decoded runs

/-- Settles O40: a step that stops in a fault other than the pc overflow has stopped before any write. -/
theorem faultWritesNothing : Obligations.FaultWritesNothing := by
  intro s t r steps faulted noOverflow
  cases step_stepEnd steps with
  | stopped r' _ _ is =>
    subst is
    exact congrArg (fun status => { s with status := status }) faulted
  | overflowed status => exact absurd (Status.faulted.inj (faulted.symm.trans status)) noOverflow
  | wentOn status | jumped status => cases faulted.symm.trans status

/-- Settles O41: a step that goes on has gone on by 1 or jumped, and one that overflowed was at 255. -/
theorem pcMovesByOneOrToTable : Obligations.PcMovesByOneOrToTable := by
  intro s t steps
  cases step_stepEnd steps with
  | stopped r ended noOverflow is =>
    subst is
    exact ⟨fun running => absurd running ended, fun overflow => absurd overflow noOverflow⟩
  | overflowed status top stays =>
    exact ⟨fun running => (nomatch running.symm.trans status), fun _ => ⟨top, stays⟩⟩
  | wentOn status goesOn =>
    exact ⟨fun _ => .inl goesOn.pc, fun overflow => (nomatch overflow.symm.trans status)⟩
  | jumped status i decoded branches goesTo =>
    exact ⟨fun _ => .inr ⟨i, decoded, branches, goesTo.pc⟩,
      fun overflow => (nomatch overflow.symm.trans status)⟩

/-! ### The trace (R56, R57) -/

/-- The event of an annotated pc. -/
theorem State.traceEvents_of_annotated {t : State} {text : Text}
    (annotated : t.dbg.find? t.pc.toNat = some text) :
    t.traceEvents = [⟨t.pc, (t.reg? 0#4).getD 0#8, text⟩] := by
  rw [State.traceEvents, annotated]
  rfl

/-- An unannotated pc has no event. -/
theorem State.traceEvents_of_not_annotated {t : State} (bare : t.dbg.find? t.pc.toNat = none) :
    t.traceEvents = [] := by
  rw [State.traceEvents, bare]

/-- A step that goes on appends exactly the event of the new pc, and one that does not appends nothing. -/
theorem step_traced {s t : State} (steps : step s = .next t) :
    (t.status = .running → Traced s t) ∧ (t.status ≠ .running → t.trace = s.trace) := by
  cases step_stepEnd steps with
  | stopped r ended _ is =>
    subst is
    exact ⟨fun running => absurd running ended, fun _ => rfl⟩
  | overflowed status _ _ quiet =>
    exact ⟨fun running => (nomatch running.symm.trans status), fun _ => quiet⟩
  | wentOn status goesOn => exact ⟨fun _ => goesOn.traced, fun ended => absurd status ended⟩
  | jumped status _ _ _ goesTo => exact ⟨fun _ => goesTo.traced, fun ended => absurd status ended⟩

/-- Settles O45: the annotations are the program's, so the new pc is annotated after the step as before. -/
theorem traceFollowsAnnotations : Obligations.TraceFollowsAnnotations := by
  intro s t steps
  obtain ⟨traced, quiet⟩ := step_traced steps
  rw [← (programIsReadOnly s t steps).dbg]
  refine ⟨fun running => ⟨fun text annotated => ?_, fun bare => ?_⟩, quiet⟩
  · rw [traced running, State.traceEvents_of_annotated annotated]
  · rw [traced running, State.traceEvents_of_not_annotated bare, List.append_nil]

end Sys2Proof.Machine
end

section
/-! SUPPORT. What an instruction does does not depend on where it stands nor on what was traced: the pc
overflow after the writes (R54, R150) and the unobservable trace (R41, R167). -/

namespace Sys2Proof.Machine

/-! ### An instruction's plan -/

/-- What an instruction writes before it retires. -/
inductive Write where
  | register (d : RegIdx) (v : Byte)
  | memory (m : Memory)
  | clearFlag
  | nothing

/-- The state with a write made. -/
def Write.apply (w : Write) (s : State) : State :=
  match w with
  | .register d v => s.setReg d v
  | .memory m => s.setMem m
  | .clearFlag => s.setOvf false
  | .nothing => s

/-- What an instruction is going to do, once its registers are checked and its operands read. -/
inductive Plan where
  | trap (r : FaultReason)
  | halt
  | write (w : Write) (overflow : Bool)
  | jump (target : Byte)

/-- A plan carried out. -/
def Plan.run (p : Plan) (s : State) : Result :=
  match p with
  | .trap r => .next (s.raiseFault r)
  | .halt => .next s.halt
  | .write w overflow => retire (signalOf overflow) (w.apply s)
  | .jump target => retire .branch (s.setPc target)

/-- The state at another place in the program, with another trace and other annotations. -/
def State.elsewhere (s : State) (pc : Byte) (trace : List TraceEvent) (dbg : DebugTable) : State :=
  { s with pc := pc, trace := trace, dbg := dbg }

/-- The operation does in `s` what some plan says, and the same elsewhere in the program. -/
def FollowsPlan (s : State) (op : State → Result) : Prop :=
  ∃ p : Plan, ∀ pc trace dbg, op (s.elsewhere pc trace dbg) = p.run (s.elsewhere pc trace dbg)

/-- The index check before a plan is a plan: the registers are the same everywhere. -/
theorem FollowsPlan.check {s : State} {op : State → Result} (js : List RegIdx) (h : FollowsPlan s op) :
    FollowsPlan s fun u => checkRegs js u (op u) := by
  obtain ⟨p, follows⟩ := h
  by_cases fits : ∀ j ∈ js, j.toNat < s.nreg
  · exact ⟨p, fun pc trace dbg =>
      (checkRegs_pass js (s.elsewhere pc trace dbg) _ fits).trans (follows pc trace dbg)⟩
  · exact ⟨.trap .registerIndexOutOfBounds, fun _ _ _ => checkRegs_fail js _ _ fits⟩

/-- A checked ALU instruction, its operands read in `s`. -/
theorem followsPlan_alu (s : State) (js : List RegIdx) (d : RegIdx) (out : Except FaultReason AluOut) :
    FollowsPlan s fun u => checkRegs js u (writeAlu d out u) := by
  refine FollowsPlan.check js ?_
  cases out with
  | error r => exact ⟨.trap r, fun _ _ _ => rfl⟩
  | ok o => exact ⟨.write (.register d o.result) o.ovfOut, fun _ _ _ => rfl⟩

/-- A checked branch, its condition tested in `s`. -/
theorem followsPlan_branchIf (s : State) (js : List RegIdx) (taken : Bool) (rank : OpField) :
    FollowsPlan s fun u => checkRegs js u (branchIf taken rank u) := by
  refine FollowsPlan.check js ?_
  cases taken with
  | true => exact ⟨.jump (branchTarget s rank), fun _ _ _ => rfl⟩
  | false => exact ⟨.write .nothing false, fun _ _ _ => rfl⟩

/-- Every instruction's plan is the same wherever it stands and whatever was traced: its operands are
registers, memory, the flag and the branch-target table. -/
theorem followsPlan_exec (i : Instr) (s : State) : FollowsPlan s (exec i) := by
  cases i with
  | ass a imm => exact followsPlan_alu s [a] a (alu .pass (s.reg a) (immediate imm))
  | movf a r => exact followsPlan_alu s [a, r] a (alu .pass (s.reg a) (s.reg r))
  | movt a r => exact followsPlan_alu s [a, r] r (alu .pass (s.reg r) (s.reg a))
  | add a r => exact followsPlan_alu s [a, r] a (alu .add (s.reg a) (s.reg r))
  | addi a imm => exact followsPlan_alu s [a] a (alu .add (s.reg a) (immediate imm))
  | sub a r => exact followsPlan_alu s [a, r] a (alu .sub (s.reg a) (s.reg r))
  | subi a imm => exact followsPlan_alu s [a] a (alu .sub (s.reg a) (immediate imm))
  | not => exact followsPlan_alu s [0#4] 0#4 (alu .not s.acc s.acc)
  | and a r => exact followsPlan_alu s [a, r] a (alu .and (s.reg a) (s.reg r))
  | or a r => exact followsPlan_alu s [a, r] a (alu .or (s.reg a) (s.reg r))
  | gt a r => exact followsPlan_alu s [a, r] a (alu .gt (s.reg a) (s.reg r))
  | lt a r => exact followsPlan_alu s [a, r] a (alu .lt (s.reg a) (s.reg r))
  | ge a r => exact followsPlan_alu s [a, r] a (alu .ge (s.reg a) (s.reg r))
  | le a r => exact followsPlan_alu s [a, r] a (alu .le (s.reg a) (s.reg r))
  | eq a r => exact followsPlan_alu s [a, r] a (alu .eq (s.reg a) (s.reg r))
  | load a r => exact followsPlan_alu s [a, r] a (alu .pass (s.reg a) (s.mem.read (effectiveAddress s r)))
  | str a r =>
    exact FollowsPlan.check [a, r]
      ⟨.write (.memory (s.mem.write (effectiveAddress s r) (s.reg a))) false, fun _ _ _ => rfl⟩
  | cfb => exact followsPlan_alu s [0#4] 0#4 (alu .bit7 s.acc s.acc)
  | bez a rank => exact followsPlan_branchIf s [a] (decide (s.reg a = 0#8)) rank
  | bnz a rank => exact followsPlan_branchIf s [a] (decide (s.reg a ≠ 0#8)) rank
  | b a rank => exact ⟨.jump (branchTarget s rank), fun _ _ _ => rfl⟩
  | lsl a imm => exact followsPlan_alu s [a] a (alu .shl (s.reg a) (immediate imm))
  | lsr a imm => exact followsPlan_alu s [a] a (alu .shr (s.reg a) (immediate imm))
  | lslr a r => exact followsPlan_alu s [a, r] a (alu .shl (s.reg a) (s.reg r))
  | lsrr a r => exact followsPlan_alu s [a, r] a (alu .shr (s.reg a) (s.reg r))
  | halt => exact ⟨.halt, fun _ _ _ => rfl⟩
  | gov => exact followsPlan_alu s [0#4] 0#4 (alu .pass s.acc (boolByte s.ovf))
  | cov => exact ⟨.write .clearFlag false, fun _ _ _ => rfl⟩

/-! ### The pc overflow after the writes (R54, R150) -/

@[simp] theorem Write.apply_pc (w : Write) (s : State) : (w.apply s).pc = s.pc := by cases w <;> rfl

@[simp] theorem Write.apply_regs_setPc (w : Write) (s : State) (pc : Byte) :
    (w.apply (s.setPc pc)).regs = (w.apply s).regs := by cases w <;> rfl

@[simp] theorem Write.apply_mem_setPc (w : Write) (s : State) (pc : Byte) :
    (w.apply (s.setPc pc)).mem = (w.apply s).mem := by cases w <;> rfl

/-- A plan that goes on at pc 0 is a jump, or makes the same writes at pc 255 and then overflows. -/
theorem Plan.run_top {p : Plan} {s u : State} (top : s.pc = 255#8)
    (atZero : p.run (s.setPc 0#8) = .next u) (running : u.status = .running) :
    (∃ target, p = .jump target) ∨
      ∃ t, p.run s = .next t ∧ t.status = .faulted .pcOverflow ∧ t.regs = u.regs ∧ t.mem = u.mem := by
  cases p with
  | trap r => cases atZero; cases running
  | halt => cases atZero; cases running
  | jump target => exact .inl ⟨target, rfl⟩
  | write w overflow =>
    have noBranch := signalOf_ne_branch overflow
    cases (retire_next _ (w.apply (s.setPc 0#8)) noBranch (by simp)).symm.trans atZero
    exact .inr ⟨_, retire_overflow _ _ noBranch (by simpa using top), rfl, by simp, by simp⟩

/-- At pc 255 no instruction but a branch goes on. -/
theorem Ended.not_running_at_top {s t : State} {i : Instr} (h : Ended s i t)
    (noBranch : i.mnemonic.operandClass ≠ .branch) (top : s.pc = 255#8) : t.status ≠ .running := by
  cases h with
  | badIndex _ is | underflow _ _ is | badShift _ _ is | halted _ is | pcOverflow _ _ _ _ _ _ is =>
    simp [is]
  | wentOn _ _ _ _ _ below => exact absurd top below
  | branched _ u effect =>
    cases effect with
    | taken _ branches => exact absurd branches noBranch

/-- The pc overflow is taken after an effect. -/
theorem Ended.effect_of_pcOverflow {s t : State} {i : Instr} (h : Ended s i t)
    (running : s.status = .running) (overflow : t.status = .faulted .pcOverflow) :
    ∃ sig u, Effect s i sig u ∧ sig ≠ .branch ∧ t = u.raiseFault .pcOverflow := by
  cases h with
  | badIndex _ is | underflow _ _ is | badShift _ _ is | halted _ is => simp [is] at overflow
  | wentOn _ _ _ effect _ _ is | branched _ _ effect is =>
    simp [is, effect.status_eq, running] at overflow
  | pcOverflow _ sig u effect noBranch _ is => exact ⟨sig, u, effect, noBranch, is⟩

/-- The effect of COV clears the flag, and every other effect leaves it. -/
theorem Effect.ovf_eq {s u : State} {i : Instr} {sig : Signal} (h : Effect s i sig u) :
    u.ovf = if i = .cov then false else s.ovf := by
  rcases eq_or_ne i .cov with rfl | other
  · cases h with
    | register _ _ named | sum _ _ named => cases named
    | store _ _ stores => cases stores
    | notTaken tests => rcases tests with tests | tests <;> cases tests
    | taken _ branches => cases branches
    | clear => rfl
  · rcases h.ovf_cases with same | ⟨isCov, -⟩
    · rw [if_neg other, same]
    · exact absurd isCov other

/-- Settles O39: the plan is that of pc 0, whose writes are made before the increment faults; a plan that
jumps is a branch's. -/
theorem pcOverflowAfterWrites : Obligations.PcOverflowAfterWrites := by
  intro i s u running top noBranch atZero goesOn
  obtain ⟨p, follows⟩ := followsPlan_exec i s
  have here : exec i s = p.run s := follows s.pc s.trace s.dbg
  have there : exec i (s.setPc 0#8) = p.run (s.setPc 0#8) := follows 0#8 s.trace s.dbg
  obtain ⟨t, runs, ending⟩ := exec_cases i s
  rcases Plan.run_top top (there.symm.trans atZero) goesOn with
    ⟨target, rfl⟩ | ⟨t', runs', status, regs, mem⟩
  · cases here.symm.trans runs
    exact absurd running (ending.not_running_at_top noBranch top)
  · cases (here.symm.trans runs).symm.trans runs'
    obtain ⟨sig, w, effect, noBranch', rfl⟩ := ending.effect_of_pcOverflow running status
    exact ⟨_, runs, status, (effect.pc_eq noBranch').trans top, regs, mem, effect.trace_eq,
      effect.ovf_eq, effect.sameProgram.raiseFault _⟩

/-! ### The unobservable trace (R41, R167) -/

/-- States that differ in trace and annotations alone are one state with two traces. -/
theorem sameButDebug_iff (s t : State) :
    SameButDebug s t ↔ ∃ trace dbg, t = s.elsewhere s.pc trace dbg :=
  ⟨fun h => ⟨t.trace, t.dbg, h⟩, by rintro ⟨trace, dbg, rfl⟩; rfl⟩

/-- Retiring reads the trace and the annotations only to append to the trace. -/
theorem retire_sameButDebug {s s' t : State} (sig : Signal) (same : SameButDebug s s')
    (retires : retire sig s = .next t) : ∃ t', retire sig s' = .next t' ∧ SameButDebug t t' := by
  obtain ⟨trace, dbg, rfl⟩ := (sameButDebug_iff s s').mp same
  rcases retire_cases sig s with ⟨noBranch, top, is⟩ | ⟨noBranch, below, is⟩ | ⟨rfl, is⟩
  all_goals cases is.symm.trans retires
  · exact ⟨_, retire_overflow sig _ noBranch top, rfl⟩
  · exact ⟨_, retire_next sig _ noBranch below, by cases sig <;> rfl⟩
  · exact ⟨_, rfl, rfl⟩

theorem Write.apply_sameButDebug (w : Write) {s s' : State} (same : SameButDebug s s') :
    SameButDebug (w.apply s) (w.apply s') := by
  obtain ⟨trace, dbg, rfl⟩ := (sameButDebug_iff s s').mp same
  cases w with
  | register | memory | clearFlag | nothing => rfl

/-- A plan cannot observe the trace or the annotations. -/
theorem Plan.run_sameButDebug (p : Plan) {s s' t : State} (same : SameButDebug s s')
    (runs : p.run s = .next t) : ∃ t', p.run s' = .next t' ∧ SameButDebug t t' := by
  cases p with
  | write w overflow => exact retire_sameButDebug _ (w.apply_sameButDebug same) runs
  | trap | halt | jump =>
    obtain ⟨trace, dbg, rfl⟩ := (sameButDebug_iff s s').mp same
    cases runs
    exact ⟨_, rfl, rfl⟩

/-- A running machine executes the instruction that fetch and decode give (R53). -/
theorem step_of_fetchDecode_ok {s : State} {i : Instr} (running : s.status = .running)
    (decoded : fetchDecode s = .ok i) : step s = exec i s := by
  simp [step_of_running s running, stepRunning, decoded]

/-- Settles O46: fetch and decode read neither, and both states follow the instruction's one plan. -/
theorem traceIsUnobservable : Obligations.TraceIsUnobservable := by
  intro s s' t same steps
  obtain ⟨trace, dbg, is⟩ := (sameButDebug_iff s s').mp same
  have fetched : fetchDecode s' = fetchDecode s := by rw [is]; rfl
  obtain ⟨running, ⟨r, faults, rfl⟩ | ⟨i, decoded, runs, -⟩⟩ := step_cases s t steps
  all_goals have running' : s'.status = .running := by rw [is]; exact running
  · exact ⟨_, step_of_fetchDecode_error running' (fetched.trans faults), by rw [is]; rfl⟩
  · obtain ⟨p, follows⟩ := followsPlan_exec i s
    have here : exec i s = p.run s := follows s.pc s.trace s.dbg
    have there : exec i s' = p.run s' := is ▸ follows s.pc trace dbg
    rw [step_of_fetchDecode_ok running' (fetched.trans decoded), there]
    exact p.run_sameButDebug same (here.symm.trans runs)

end Sys2Proof.Machine
end

section
/-! SUPPORT. One step (R53) and rules on single instructions that the instruction statements leave over: the
index fault (R153), B (R137), NOT twice (R123) and a LOAD after a STR (R79). -/

namespace Sys2Proof.Machine

/-! ### One step of a running machine (R53) -/

/-- Fetch and decode give what the entry at the pc decodes to. -/
theorem fetchDecode_of_ok {s : State} {e : Entry} {i : Instr} (atPc : s.imem[s.pc.toNat]? = some e)
    (decoded : decode s.opcodeMap e = .ok i) : fetchDecode s = .ok i := by
  simp [fetchDecode, fetch, atPc, decoded]

/-- Fetch and decode give the reason for which the decoder rejects the entry at the pc. -/
theorem fetchDecode_of_error {s : State} {e : Entry} {d : DecodeFault}
    (atPc : s.imem[s.pc.toNat]? = some e) (rejected : decode s.opcodeMap e = .error d) :
    fetchDecode s = .error (decodeReason d) := by
  simp [fetchDecode, fetch, atPc, rejected]

/-- Settles O10: fetch and decode give the instruction, and a step is what it does. -/
theorem stepRunsDecodedInstruction : Obligations.StepRunsDecodedInstruction :=
  fun _ _ _ running atPc decoded => step_of_fetchDecode_ok running (fetchDecode_of_ok atPc decoded)

/-- Settles O12: each rejection has a fault reason of its own, taken by fetch and decode. -/
theorem undecodableEntryFaults : Obligations.UndecodableEntryFaults := by
  intro s e running atPc
  have takesReason (d : DecodeFault) (rejected : decode s.opcodeMap e = .error d) :
      step s = .next (s.raiseFault (decodeReason d)) :=
    step_of_fetchDecode_error running (fetchDecode_of_error atPc rejected)
  exact ⟨takesReason .illegalOpcode, takesReason .reservedOperandField, takesReason .shiftOutOfRange⟩

/-! ### The index fault and B -/

/-- Settles O14: the index check comes before every other ending. -/
theorem badRegisterIndexTraps : Obligations.BadRegisterIndexTraps := fun _ _ => traps_of_unfit

theorem exec_b (a : RegIdx) (rank : OpField) (s : State) : exec (.b a rank) s = branchIf true rank s :=
  rfl

/-- Settles O33: B is a branch always taken, with no index check before it. -/
theorem bJumpsAlways : Obligations.BJumpsAlways := fun s a rank =>
  ⟨encodesAs_default _, jumpsTo_of_taken _ s rank (exec_b a rank s)⟩

/-! ### An instruction that goes on -/

/-- An instruction after which the machine runs had the registers it names. -/
theorem Ended.fits_of_running {s t : State} {i : Instr} (h : Ended s i t) (goesOn : t.status = .running) :
    i.FitsRegisters s.nreg := by
  cases h with
  | badIndex _ is | halted _ is => simp [is] at goesOn
  | underflow fits | badShift fits | pcOverflow fits | wentOn fits | branched fits => exact fits

/-- An instruction other than a branch after which the machine runs had the registers it names and stood
below pc 255. -/
theorem fits_and_below_of_running {s t : State} {i : Instr}
    (noBranch : i.mnemonic.operandClass ≠ .branch) (runs : exec i s = .next t)
    (goesOn : t.status = .running) : i.FitsRegisters s.nreg ∧ s.pc ≠ 255#8 := by
  obtain ⟨t', runs', ending⟩ := exec_cases i s
  cases runs'.symm.trans runs
  exact ⟨ending.fits_of_running goesOn, fun top => ending.not_running_at_top noBranch top goesOn⟩

/-! ### NOT twice (R123) -/

/-- However NOT retires, it has complemented an accumulator that exists. -/
theorem regs_of_exec_not {s t : State} (hasAcc : (0#4).toNat < s.nreg) (runs : exec .not s = .next t) :
    t.regs = (s.setReg 0#4 (~~~s.acc)).regs := by
  have fits := (fitsRegisters_one (i := .not) rfl s.nreg).mpr hasAcc
  rw [exec_not, aluAccumulator, checkRegs_pass [0#4] s _ fits] at runs
  have retires : retire .none (s.setReg 0#4 (~~~s.acc)) = .next t := runs
  rcases retire_cases .none (s.setReg 0#4 (~~~s.acc)) with ⟨-, -, is⟩ | ⟨-, -, is⟩ | ⟨branch, -⟩
  · cases is.symm.trans retires; rfl
  · cases is.symm.trans retires; rfl
  · cases branch

/-- After NOT the accumulator reads as its complement. -/
theorem reg?_zero_of_exec_not {s t : State} (hasAcc : (0#4).toNat < s.nreg)
    (runs : exec .not s = .next t) : t.reg? 0#4 = some (~~~s.acc) :=
  (State.reg?_congr _ t 0#4 (regs_of_exec_not hasAcc runs)).trans (s.reg?_setReg_same 0#4 _ hasAcc)

/-- NOT leaves every register but the accumulator. -/
theorem reg?_other_of_exec_not {s t : State} {j : RegIdx} (hasAcc : (0#4).toNat < s.nreg)
    (runs : exec .not s = .next t) (other : j ≠ 0#4) : t.reg? j = s.reg? j :=
  (State.reg?_congr _ t j (regs_of_exec_not hasAcc runs)).trans (s.reg?_setReg_other 0#4 j _ other)

/-- Settles O23: the first NOT went on, so there is an accumulator; complementing a byte twice restores
it. -/
theorem notTwiceRestores : Obligations.NotTwiceRestores := by
  intro s t u _ first goesOn second j
  obtain ⟨fits, -⟩ := fits_and_below_of_running (by decide) first goesOn
  have hasAcc : (0#4).toNat < s.nreg := (fitsRegisters_one (i := .not) rfl s.nreg).mp fits
  have accAfter := reg?_zero_of_exec_not hasAcc first
  have hasAcc' := State.lt_nreg_of_reg? accAfter
  by_cases isAcc : j = 0#4
  · have acc : t.acc = ~~~s.acc := t.reg_of_reg? 0#4 _ accAfter
    rw [isAcc, reg?_zero_of_exec_not hasAcc' second, acc, BitVec.not_not, s.reg?_eq_reg 0#4 hasAcc,
      State.acc]
  · exact (reg?_other_of_exec_not hasAcc' second isAcc).trans
      (reg?_other_of_exec_not hasAcc first isAcc)

/-! ### A LOAD after a STR (R79) -/

/-- Settles O30: a STR that went on stored its byte at an address the LOAD reads again. -/
theorem loadReturnsLastStore : Obligations.LoadReturnsLastStore := by
  intro s t a r d q v canonical readA _ stores goesOn below hasD sameAddress
  obtain ⟨fits, belowBefore⟩ := fits_and_below_of_running (i := .str a r) nofun stores goesOn
  obtain ⟨-, hasR⟩ := (fitsRegisters_two (i := .str a r) rfl s.nreg).mp fits
  have readR := s.reg?_eq_reg r hasR
  cases (exec_str_of_reads readA readR belowBefore).symm.trans stores
  obtain ⟨-, loads, -⟩ := loadReadsMemory (retired .none (s.setMem (s.mem.write (s.reg r) v))) d q
  have loaded := loads (s.reg r) hasD (sameAddress.trans readR) below
  have stored : (retired .none (s.setMem (s.mem.write (s.reg r) v))).mem.read (s.reg r) = v :=
    s.mem.read_write_same (s.reg r) v canonical
  rwa [stored] at loaded

end Sys2Proof.Machine
end

section
/-! SUPPORT. What every step keeps (the invariant and the legal image) and runs of any length (R59, R177). -/

namespace Sys2Proof.Machine

/-! ### The invariant (R11 to R15, R37, R55 to R57, R75) -/

/-- The limits are about the program, the parameters and the register count. -/
theorem SameProgram.withinLimits {s t : State} (same : SameProgram s t) (limits : s.WithinLimits) :
    t.WithinLimits := by
  simpa only [State.WithinLimits, State.PaddedTable, same.nreg, same.imem, same.nlab, same.opcodeMap,
    same.memMin, same.memMax, same.dbg, same.btt] using limits

/-- A step writes at most one byte, which keeps the canonical form. -/
theorem step_mem_wf {s t : State} (canonical : s.mem.wf) (steps : step s = .next t) : t.mem.wf := by
  obtain ⟨-, ⟨r, -, rfl⟩ | ⟨i, -, -, ending⟩⟩ := step_cases s t steps
  · exact canonical
  · rcases ending.mem_cases with same | ⟨a, r, -, written⟩
    · rwa [same]
    · rw [written]
      exact Memory.write_wf _ _ _ canonical

theorem statusExplained_of_running {s : State} (running : s.status = .running) : s.StatusExplained := by
  simp [State.StatusExplained, running]

/-- A fault of fetch and decode is explained by where it was taken. -/
theorem statusExplained_of_fetchDecode_error {s : State} {r : FaultReason}
    (faults : fetchDecode s = .error r) : (s.raiseFault r).StatusExplained := by
  rcases fetchDecode_cases s with ⟨past, is⟩ | ⟨e, d, -, -, is⟩ | ⟨e, i, -, -, is⟩
  all_goals cases is.symm.trans faults
  · exact past
  · cases d with
    | illegalOpcode | reservedOperandField => exact is
    | shiftOutOfRange => exact .inl is

/-- What fetch and decode give is well-formed (R93). -/
theorem wellFormed_of_fetchDecode {s : State} {i : Instr} (decoded : fetchDecode s = .ok i) :
    i.WellFormed := by
  rcases fetchDecode_cases s with ⟨-, is⟩ | ⟨e, d, -, -, is⟩ | ⟨e, j, -, fromEntry, is⟩
  all_goals cases is.symm.trans decoded
  exact (encodeDecodeAgree _ _ _ fromEntry).1

/-- Every ending is explained by the instruction that was decoded: a fault or a HALT leaves it in place,
and an ill-formed shift does not decode. -/
theorem Ended.statusExplained {s t : State} {i : Instr} (h : Ended s i t) (running : s.status = .running)
    (decoded : fetchDecode s = .ok i) : t.StatusExplained := by
  cases h with
  | badIndex unfit is => exact is ▸ ⟨i, decoded, unfit⟩
  | underflow _ subtracts is => exact is ▸ ⟨i, decoded, subtracts⟩
  | badShift _ shifts is =>
    have wellFormed := wellFormed_of_fetchDecode decoded
    exact is ▸ .inr ⟨i, decoded, shifts.resolve_right (not_not_intro wellFormed)⟩
  | halted halts is =>
    subst halts
    exact is ▸ decoded
  | pcOverflow _ _ u effect noBranch top is => exact is ▸ (effect.pc_eq noBranch).trans top
  | wentOn _ _ _ effect _ _ is | branched _ _ effect is =>
    exact statusExplained_of_running (by simp [is, effect.status_eq, running])

/-- The status a step leaves is explained, whatever it started from. -/
theorem step_statusExplained {s t : State} (steps : step s = .next t) : t.StatusExplained := by
  obtain ⟨running, ⟨r, faults, rfl⟩ | ⟨i, decoded, -, ending⟩⟩ := step_cases s t steps
  · exact statusExplained_of_fetchDecode_error faults
  · exact ending.statusExplained running decoded

/-- Settles O47: the program and with it the limits stay, a store keeps the canonical form, and each way
of ending a step explains its own status. -/
theorem stepKeepsInvariant : Obligations.StepKeepsInvariant := by
  rintro s t ⟨limits, canonical, -⟩ steps
  exact ⟨(programIsReadOnly s t steps).withinLimits limits, step_mem_wf canonical steps,
    step_statusExplained steps⟩

/-! ### The legal image (R75, R153 to R156) -/

theorem SameProgram.legalImage {s t : State} (same : SameProgram s t) (legal : LegalImage s) :
    LegalImage t := by
  simpa only [LegalImage, same.imem, same.opcodeMap, same.nreg] using legal

theorem noLoaderFault_of_running {s : State} (running : s.status = .running) : NoLoaderFault s := by
  simp [NoLoaderFault, running]

/-- With the registers it names present, no ending of an instruction is a fault the loader rules out. -/
theorem Ended.noLoaderFault {s t : State} {i : Instr} (h : Ended s i t) (running : s.status = .running)
    (fits : i.FitsRegisters s.nreg) : NoLoaderFault t := by
  cases h with
  | badIndex unfit => exact absurd fits unfit
  | underflow _ _ is | badShift _ _ is | halted _ is | pcOverflow _ _ _ _ _ _ is =>
    simp [is, NoLoaderFault]
  | wentOn _ _ _ effect _ _ is | branched _ _ effect is =>
    exact noLoaderFault_of_running (by simp [is, effect.status_eq, running])

/-- Settles O49: fetched from a legal image is an instruction whose registers exist, or nothing past its
end, and neither ends in one of the four faults. -/
theorem stepKeepsLegalImage : Obligations.StepKeepsLegalImage := by
  intro s t legal steps
  refine ⟨(programIsReadOnly s t steps).legalImage legal, ?_⟩
  obtain ⟨running, ⟨r, faults, rfl⟩ | ⟨i, decoded, -, ending⟩⟩ := step_cases s t steps
  all_goals rcases legal.fetchDecode with past | ⟨j, found, fits⟩
  · cases past.symm.trans faults
    simp [NoLoaderFault]
  · cases found.symm.trans faults
  · cases past.symm.trans decoded
  · cases found.symm.trans decoded
    exact ending.noLoaderFault running fits

/-- From a legal image without a fault, no state that is reached has one of the four faults. -/
theorem Reaches.noLoaderFault {s t : State} (reached : Reaches s t) (legal : LegalImage s)
    (clean : NoLoaderFault s) : NoLoaderFault t := by
  induction reached with
  | refl => exact clean
  | step first _ ih =>
    obtain ⟨legal', clean'⟩ := stepKeepsLegalImage _ _ legal first
    exact ih legal' clean'

/-! ### Runs (R59, R177) -/

/-- A run is over where the machine does not run, with any fuel. -/
theorem run_of_not_running {s : State} (n : Nat) (ended : s.status ≠ .running) : run n s = some s := by
  rw [run.eq_def, if_neg ended]

/-- Without fuel a running machine has no result. -/
theorem run_zero_of_running {s : State} (running : s.status = .running) : run 0 s = none := by
  rw [run, if_pos running]

/-- With fuel a running machine goes on from its next state. -/
theorem run_succ_of_step {s t : State} (n : Nat) (running : s.status = .running)
    (steps : step s = .next t) : run (n + 1) s = run n t := by
  rw [run, if_pos running, steps]

/-- Settles O58: more fuel is left over once the run has ended. -/
theorem runResultIgnoresFuel : Obligations.RunResultIgnoresFuel := by
  intro n k s t ends
  induction n generalizing s with
  | zero =>
    by_cases running : s.status = .running
    · cases (run_zero_of_running running).symm.trans ends
    · rwa [run_of_not_running _ running] at ends ⊢
  | succ n ih =>
    by_cases running : s.status = .running
    · obtain ⟨u, steps⟩ := (stepExactlyWhenRunning s).2 running
      rw [run_succ_of_step n running steps] at ends
      rw [Nat.add_right_comm n 1 k, run_succ_of_step _ running steps]
      exact ih u ends
    · rwa [run_of_not_running _ running] at ends ⊢

/-- Settles O59: the step comes back to a state with the same pc and program, and fuel is all that is
used up. -/
theorem selfBranchNeverEnds : Obligations.SelfBranchNeverEnds := by
  intro s a rank running decoded toItself n
  induction n generalizing s with
  | zero => exact run_zero_of_running running
  | succ n ih =>
    have steps : step s = .next (s.setPc (branchTarget s rank)).emitTrace :=
      step_of_fetchDecode_ok running decoded
    have samePlace : fetchDecode (s.setPc (branchTarget s rank)).emitTrace = fetchDecode s :=
      fetchDecode_congr s (s.setPc (branchTarget s rank)).emitTrace rfl rfl toItself
    rw [run_succ_of_step n running steps]
    exact ih (s.setPc (branchTarget s rank)).emitTrace running (samePlace.trans decoded) rfl

/-! ### Reset (R60 to R65) and the spec's example of ranks (R100) -/

/-- Settles O50: the reset state is written out, and 16 registers cover every index. -/
theorem resetValues : Obligations.ResetValues :=
  ⟨by decide, rfl, rfl, fun _ => rfl, rfl, rfl⟩

/-- Settles O48: each limit is a fact about the reset state, whose memory is empty and which runs. -/
theorem resetHasInvariant : Obligations.ResetHasInvariant :=
  ⟨by decide, reset_mem_wf, statusExplained_of_running rfl⟩

/-- Settles O55: the three labels sorted. -/
theorem rankExample : Obligations.RankExample := by
  unfold Obligations.RankExample
  decide

end Sys2Proof.Machine
end

section
/-! SUPPORT. What the loader builds (R99, R104 to R114) and the state in which a run starts (R60 to R65, R169,
R170). -/

namespace Sys2Proof.Machine

/-! ### Binding operands (R108 to R110) -/

/-- A register name gives an index below the count of names: 16 names fit the 4-bit index. -/
theorem registerOf?_lt {names : List Text} {t : Text} {a : RegIdx}
    (few : names.length ≤ Config.maxRegisters) (found : registerOf? names t = some a) :
    a.toNat < names.length := by
  obtain ⟨k, place, rfl⟩ := Option.map_eq_some_iff.mp found
  obtain ⟨inRange, -⟩ := List.idxOf?_eq_some_iff.mp place
  have fits : k < 2 ^ 4 := Nat.lt_of_lt_of_le inRange few
  rwa [BitVec.toNat_ofNat, Nat.mod_eq_of_lt fits]

/-- Class N names the accumulator or nothing. -/
theorem instrNone_some {op : Mnemonic} {i : Instr} (built : instrNone op = some i) :
    i.WellFormed ∧ ∀ j ∈ i.registers, j = 0#4 := by
  cases op with
  | not | cfb | halt | gov | cov => cases built; decide
  | _ => cases built

/-- Class I keeps its mnemonic, register and immediate. -/
theorem instrImmediate_some {op : Mnemonic} {a : RegIdx} {imm : OpField} {i : Instr}
    (built : instrImmediate op a imm = some i) :
    i.mnemonic = op ∧ i.operandField = imm ∧ i.registers = [a] := by
  cases op with
  | ass | addi | subi | lsl | lsr => cases built; exact ⟨rfl, rfl, rfl⟩
  | _ => cases built

/-- Classes R and M name both registers and bound no field. -/
theorem instrRegister_some {op : Mnemonic} {a r : RegIdx} {i : Instr}
    (built : instrRegister op a r = some i) : i.WellFormed ∧ i.registers = [a, r] := by
  cases op with
  | movf | movt | add | sub | and | or | gt | lt | ge | le | eq | load | str | lslr | lsrr =>
    cases built
    exact ⟨by simp [Instr.WellFormed, Instr.mnemonic], rfl⟩
  | _ => cases built

/-- Class B names its register or nothing, and bounds no field. -/
theorem instrBranch_some {op : Mnemonic} {a : RegIdx} {rank : OpField} {i : Instr}
    (built : instrBranch op a rank = some i) : i.WellFormed ∧ ∀ j ∈ i.registers, j = a := by
  cases op with
  | bez | bnz | b =>
    cases built
    exact ⟨by simp [Instr.WellFormed, Instr.mnemonic], by simp [Instr.registers]⟩
  | _ => cases built

theorem boundPlain_ok {o : Option Instr} {b : Bound} (built : boundPlain o = .ok b) :
    ∃ i, o = some i ∧ b = .plain i := by
  cases o with
  | none => cases built
  | some i => cases built; exact ⟨i, rfl, rfl⟩

/-- What is bound will be an encodable instruction whose registers exist. -/
def Bound.Fits (n : Nat) (b : Bound) : Prop :=
  match b with
  | .plain i => i.WellFormed ∧ i.FitsRegisters n
  | .branch _ a _ => a.toNat < n

/-- An immediate within its mnemonic's bound makes the instruction well-formed. -/
theorem bindImmediate_fits {names : List Text} {op : Mnemonic} {ta ti : Text} {b : Bound}
    (few : names.length ≤ Config.maxRegisters) (bound : bindImmediate names op ta ti = .ok b) :
    b.Fits names.length := by
  rw [bindImmediate] at bound
  split at bound
  · cases bound
  next a found =>
  split at bound
  · cases bound
  next n _ =>
  split at bound
  next small =>
    obtain ⟨i, built, rfl⟩ := boundPlain_ok bound
    obtain ⟨rfl, field, names⟩ := instrImmediate_some built
    refine ⟨fun isShift => ?_, (fitsRegisters_one names _).mpr (registerOf?_lt few found)⟩
    rw [immediateBound, if_pos isShift] at small
    rw [field, BitVec.toNat_ofNat]
    exact (Nat.mod_le n _).trans small
  next => cases bound

theorem bindRegister_fits {names : List Text} {op : Mnemonic} {ta tr : Text} {b : Bound}
    (few : names.length ≤ Config.maxRegisters) (bound : bindRegister names op ta tr = .ok b) :
    b.Fits names.length := by
  rw [bindRegister] at bound
  split at bound
  · cases bound
  next a foundA =>
  split at bound
  · cases bound
  next r foundR =>
  obtain ⟨i, built, rfl⟩ := boundPlain_ok bound
  obtain ⟨wellFormed, names⟩ := instrRegister_some built
  exact ⟨wellFormed,
    (fitsRegisters_two names _).mpr ⟨registerOf?_lt few foundA, registerOf?_lt few foundR⟩⟩

theorem bindBranch_fits {names : List Text} {op : Mnemonic} {ta label : Text} {b : Bound}
    (few : names.length ≤ Config.maxRegisters) (bound : bindBranch names op ta label = .ok b) :
    b.Fits names.length := by
  rw [bindBranch] at bound
  split at bound
  · cases bound
  next a found =>
  cases bound
  exact registerOf?_lt few found

/-- Whatever its class, a bound instruction fits: class N needs a first register, the others look theirs
up. -/
theorem bindOperands_fits {names : List Text} {op : Mnemonic} {operands : List Text} {b : Bound}
    (someName : 1 ≤ names.length) (few : names.length ≤ Config.maxRegisters)
    (bound : bindOperands names op operands = .ok b) : b.Fits names.length := by
  rw [bindOperands.eq_def] at bound
  split at bound
  · obtain ⟨i, built, rfl⟩ := boundPlain_ok bound
    obtain ⟨wellFormed, accOnly⟩ := instrNone_some built
    exact ⟨wellFormed, fun j named => accOnly j named ▸ someName⟩
  · exact bindImmediate_fits few bound
  · exact bindRegister_fits few bound
  · exact bindRegister_fits few bound
  · exact bindBranch_fits few bound
  · cases bound

/-! ### The annotation table (R38, R107) -/

/-- An annotation at a lower index goes in front. -/
theorem DebugTable.attach_of_lt {d : DebugTable} {e : Nat × Text} {k : Nat} (text : Text)
    (h : k < e.1) : DebugTable.attach (e :: d) k text = (k, text) :: e :: d := by
  simp [DebugTable.attach, h]

/-- An annotation at the same index replaces the one there. -/
theorem DebugTable.attach_of_eq {d : DebugTable} {e : Nat × Text} {k : Nat} (text : Text)
    (h : k = e.1) : DebugTable.attach (e :: d) k text = (k, text) :: d := by
  simp [DebugTable.attach, h]

/-- An annotation at a higher index goes further back. -/
theorem DebugTable.attach_of_gt {d : DebugTable} {e : Nat × Text} {k : Nat} (text : Text)
    (h : e.1 < k) : DebugTable.attach (e :: d) k text = e :: DebugTable.attach d k text := by
  simp [DebugTable.attach, Nat.not_lt_of_gt h, Nat.ne_of_gt h]

/-- An annotation after attaching one is the one attached or was there before. -/
theorem DebugTable.mem_attach {d : DebugTable} {k : Nat} {text : Text} {c : Nat × Text}
    (h : c ∈ d.attach k text) : c = (k, text) ∨ c ∈ d := by
  induction d with
  | nil => exact .inl (List.mem_singleton.mp h)
  | cons e rest ih =>
    rcases Nat.lt_trichotomy k e.1 with place | place | place
    · rw [DebugTable.attach_of_lt text place] at h
      exact List.mem_cons.mp h
    · rw [DebugTable.attach_of_eq text place] at h
      exact (List.mem_cons.mp h).imp_right (List.mem_cons_of_mem _)
    · rw [DebugTable.attach_of_gt text place] at h
      rcases List.mem_cons.mp h with rfl | h
      · exact .inr List.mem_cons_self
      · exact (ih h).imp_right (List.mem_cons_of_mem _)

/-- Attaching keeps the indices rising. -/
theorem DebugTable.attach_rising {d : DebugTable} (k : Nat) (text : Text)
    (rising : d.Pairwise fun c e => c.1 < e.1) :
    (d.attach k text).Pairwise fun c e => c.1 < e.1 := by
  induction d with
  | nil => exact List.pairwise_singleton _ _
  | cons e rest ih =>
    obtain ⟨above, restRising⟩ := List.pairwise_cons.mp rising
    rcases Nat.lt_trichotomy k e.1 with place | place | place
    · rw [DebugTable.attach_of_lt text place]
      exact List.pairwise_cons.mpr
        ⟨List.forall_mem_cons.mpr ⟨place, fun c hc => place.trans (above c hc)⟩, rising⟩
    · rw [DebugTable.attach_of_eq text place]
      exact List.pairwise_cons.mpr ⟨fun c hc => place ▸ above c hc, restRising⟩
    · rw [DebugTable.attach_of_gt text place]
      refine List.pairwise_cons.mpr ⟨fun c hc => ?_, ih restRising⟩
      rcases DebugTable.mem_attach hc with rfl | hc
      · exact place
      · exact above c hc

/-! ### Reading lines (R105 to R108) -/

/-- What has been read is sound: the bound instructions fit, and the annotations are a table of indices of
instructions. -/
structure Loaded.Sound (n : Nat) (l : Loaded) : Prop where
  code : ∀ b ∈ l.code, b.Fits n
  rising : l.annotations.Pairwise fun c e => c.1 < e.1
  annotated : ∀ c ∈ l.annotations, c.1 < l.code.length

theorem Loaded.empty_sound (n : Nat) : Loaded.empty.Sound n :=
  ⟨List.forall_mem_nil _, .nil, List.forall_mem_nil _⟩

/-- A label line reads neither code nor annotations. -/
theorem readLabel_sound {n : Nat} {l l' : Loaded} {t : Text} {others : List Text} (sound : l.Sound n)
    (read : readLabel l t others = .ok l') : l'.Sound n := by
  rw [readLabel.eq_def] at read
  split at read
  · split at read
    · cases read
    · cases read; exact ⟨sound.code, sound.rising, sound.annotated⟩
  · cases read

/-- A `DEBUG` line annotates the last instruction read, and there is one. -/
theorem readDebug_sound {n : Nat} {l l' : Loaded} {operands : List Text} (sound : l.Sound n)
    (read : readDebug l operands = .ok l') : l'.Sound n := by
  rw [readDebug.eq_def] at read
  split at read
  next text =>
    split at read
    · cases read
    next nonempty =>
    cases read
    refine ⟨sound.code, DebugTable.attach_rising _ _ sound.rising, fun c hc => ?_⟩
    rcases DebugTable.mem_attach hc with rfl | hc
    · exact Nat.sub_one_lt (mt List.length_eq_zero_iff.mp nonempty)
    · exact sound.annotated c hc
  next => cases read

/-- An instruction line appends one bound instruction. -/
theorem readInstruction_sound {names : List Text} {l l' : Loaded} {t : Text} {operands : List Text}
    (someName : 1 ≤ names.length) (few : names.length ≤ Config.maxRegisters)
    (sound : l.Sound names.length) (read : readInstruction names l t operands = .ok l') :
    l'.Sound names.length := by
  rw [readInstruction] at read
  split at read
  · cases read
  split at read
  · cases read
  next b bound =>
  cases read
  refine ⟨fun c hc => ?_, sound.rising, fun c hc => ?_⟩
  · rcases List.mem_append.mp hc with old | new
    · exact sound.code c old
    · exact List.mem_singleton.mp new ▸ bindOperands_fits someName few bound
  · simpa using Nat.lt_succ_of_lt (sound.annotated c hc)

theorem readLine_sound {names : List Text} {l l' : Loaded} {line : List Text}
    (someName : 1 ≤ names.length) (few : names.length ≤ Config.maxRegisters)
    (sound : l.Sound names.length) (read : readLine names l line = .ok l') : l'.Sound names.length := by
  cases line with
  | nil => cases read; exact sound
  | cons t rest =>
    rw [readLine] at read
    split at read
    · cases read; exact sound
    split at read
    · cases read
    split at read
    · exact readLabel_sound sound read
    split at read
    · exact readDebug_sound sound read
    · exact readInstruction_sound someName few sound read

/-- Reading lines keeps what has been read sound, line by line. -/
theorem readLines_sound {names : List Text} {l l' : Loaded} {lines : List (List Text)}
    (someName : 1 ≤ names.length) (few : names.length ≤ Config.maxRegisters)
    (sound : l.Sound names.length) (read : readLines names l lines = .ok l') :
    l'.Sound names.length := by
  induction lines generalizing l with
  | nil => cases read; exact sound
  | cons line rest ih =>
    rw [readLines] at read
    split at read
    · cases read
    next next first => exact ih (readLine_sound someName few sound first) read

/-! ### The image (R99, R110, R112, R114) -/

/-- A bound instruction that fits is resolved to an encodable instruction whose registers exist. -/
theorem resolve_fits {n : Nat} {labels : List (Text × Nat)} {b : Bound} {i : Instr} (fits : b.Fits n)
    (resolved : resolve labels b = .ok i) : i.WellFormed ∧ i.FitsRegisters n := by
  cases b with
  | plain j => cases resolved; exact fits
  | branch op a name =>
    rw [resolve] at resolved
    split at resolved
    · cases resolved
    split at resolved
    · cases resolved
    next j built =>
    cases resolved
    obtain ⟨wellFormed, ownOnly⟩ := instrBranch_some built
    exact ⟨wellFormed, fun j named => ownOnly j named ▸ fits⟩

/-- Resolving makes one instruction of each bound one. -/
theorem resolveAll_fits {n : Nat} {labels : List (Text × Nat)} {code : List Bound} {is : List Instr}
    (fits : ∀ b ∈ code, b.Fits n) (resolved : resolveAll labels code = .ok is) :
    is.length = code.length ∧ ∀ i ∈ is, i.WellFormed ∧ i.FitsRegisters n := by
  induction code generalizing is with
  | nil => cases resolved; exact ⟨rfl, List.forall_mem_nil _⟩
  | cons b rest ih =>
    obtain ⟨first, others⟩ := List.forall_mem_cons.mp fits
    rw [resolveAll] at resolved
    split at resolved
    · cases resolved
    next i resolvedFirst =>
    split at resolved
    · cases resolved
    next js resolvedRest =>
    cases resolved
    obtain ⟨sameLength, allFit⟩ := ih others resolvedRest
    exact ⟨congrArg (· + 1) sameLength,
      List.forall_mem_cons.mpr ⟨resolve_fits first resolvedFirst, allFit⟩⟩

/-- A sound image: within the limits, its tables in their form, and every entry an encodable instruction
whose registers exist. -/
structure Image.Sound (m : OpcodeMap) (n : Nat) (p : Image) : Prop where
  programFits : p.imem.length ≤ Config.maxProgram
  labelsFit : p.nlab ≤ Config.maxLabels
  annotations : p.dbg.wf
  padded : ∀ k : Fin 16, p.nlab ≤ k.val → p.btt[k.val] = 0#8
  entries : ∀ e ∈ p.imem, ∃ i : Instr, e = encode m i ∧ i.WellFormed ∧ i.FitsRegisters n

/-- What was read soundly builds a sound image. -/
theorem buildImage_sound {m : OpcodeMap} {n : Nat} {l : Loaded} {p : Image} (sound : l.Sound n)
    (built : buildImage m l = .ok p) : p.Sound m n := by
  obtain ⟨codeFits, labelsFit, -, is, resolved, rfl⟩ := buildImage_ok built
  obtain ⟨sameLength, allFit⟩ := resolveAll_fits sound.code resolved
  refine ⟨?_, labelsFit, ⟨sound.rising, fun c hc => ?_⟩, fun k => branchTable_getElem_of_length_le,
    fun e he => ?_⟩
  · simpa [sameLength] using codeFits
  · exact Nat.lt_of_lt_of_le (sound.annotated c hc) codeFits
  · obtain ⟨i, hi, rfl⟩ := List.mem_map.mp he
    exact ⟨i, rfl, allFit i hi⟩

/-- Every source that has an image has a sound one. -/
theorem assemble_sound {m : OpcodeMap} {names : List Text} {src : List Byte} {p : Image}
    (someName : 1 ≤ names.length) (few : names.length ≤ Config.maxRegisters)
    (assembled : assemble m names src = .ok p) : p.Sound m names.length := by
  obtain ⟨text, -, fromText⟩ := (assemble_eq_ok_iff m names src p).mp assembled
  rw [assembleText] at fromText
  split at fromText
  · cases fromText
  next l read =>
  exact buildImage_sound (readLines_sound someName few (Loaded.empty_sound _) read) fromText

/-! ### The launch state (R60 to R65, R169, R170) -/

/-- What it takes to boot, and the state a run then starts in. -/
theorem boot_ok {m : OpcodeMap} {d : Driver} {src : List Byte} {s : State} (h : boot m d src = .ok s) :
    d.NamesOk ∧ d.PreloadOk ∧ d.WindowOk ∧
      ∃ p, assemble m d.names src = .ok p ∧ s = (construct m d).install p := by
  rw [boot] at h
  split at h
  · cases h
  next names =>
  split at h
  · cases h
  next preload =>
  split at h
  · cases h
  next window =>
  split at h
  · cases h
  next p assembled =>
  cases h
  exact ⟨not_not.mp names, not_not.mp preload, not_not.mp window, p, assembled, rfl⟩

@[simp] theorem construct_install_nreg (m : OpcodeMap) (d : Driver) (p : Image) :
    ((construct m d).install p).nreg = d.names.length := List.length_replicate

/-- An address the preload does not name reads as the reset value 0 (R63). -/
theorem preloaded_read_of_unnamed {preload : List (Nat × Nat)} {addr : Byte}
    (fits : ∀ p ∈ preload, p.1 ≤ 255) (unnamed : addr.toNat ∉ preload.map Prod.fst) :
    (preloaded preload).read addr = 0#8 := by
  induction preload with
  | nil => rfl
  | cons p rest ih =>
    obtain ⟨fitsFirst, fitsRest⟩ := List.forall_mem_cons.mp fits
    obtain ⟨otherFirst, otherRest⟩ := not_or.mp (mt List.mem_cons.mpr unnamed)
    have other : addr ≠ BitVec.ofNat 8 p.1 := by bv_omega
    rw [preloaded, Memory.read_write_other _ _ _ _ other]
    exact ih fitsRest otherRest

/-- An address the preload names once reads as its value there. -/
theorem preloaded_read_of_named {preload : List (Nat × Nat)} {p : Nat × Nat}
    (distinct : (preload.map Prod.fst).Nodup) (fits : ∀ q ∈ preload, q.1 ≤ 255) (named : p ∈ preload) :
    (preloaded preload).read (BitVec.ofNat 8 p.1) = BitVec.ofNat 8 p.2 := by
  induction preload with
  | nil => cases named
  | cons q rest ih =>
    obtain ⟨fitsFirst, fitsRest⟩ := List.forall_mem_cons.mp fits
    obtain ⟨fresh, distinctRest⟩ := List.nodup_cons.mp distinct
    rw [preloaded]
    rcases List.mem_cons.mp named with rfl | named
    · exact Memory.read_write_same _ _ _ (preloaded_wf rest)
    · have fitsNamed := fitsRest p named
      have otherAddress : p.1 ≠ q.1 := fun same => fresh (same ▸ List.mem_map_of_mem named)
      have other : BitVec.ofNat 8 p.1 ≠ BitVec.ofNat 8 q.1 := by bv_omega
      rw [Memory.read_write_other _ _ _ _ other]
      exact ih distinctRest fitsRest named

/-- Settles O51: the machine is constructed at its reset values with the preload, and the image touches
neither registers nor memory. -/
theorem bootLaunchState : Obligations.BootLaunchState := by
  intro m d src s boots
  obtain ⟨-, ⟨distinct, inRange⟩, -, p, -, rfl⟩ := boot_ok boots
  have addressesFit : ∀ q ∈ d.preload, q.1 ≤ 255 := fun q hq => (inRange q hq).1
  refine ⟨construct_install_nreg m d p, fun j present => ?_, rfl, rfl, rfl, rfl,
    fun q named => preloaded_read_of_named distinct addressesFit named,
    fun addr unnamed => preloaded_read_of_unnamed addressesFit unnamed⟩
  rw [construct_install_nreg] at present
  exact List.getElem?_replicate_of_lt present

/-- Settles O52: the driver's checks give the register count and the window, the loader's the rest of the
limits. -/
theorem bootHasInvariant : Obligations.BootHasInvariant := by
  intro m d src s valid boots
  obtain ⟨⟨someName, few, -⟩, -, ⟨ordered, inMemory⟩, p, assembled, rfl⟩ := boot_ok boots
  have sound := assemble_sound someName few assembled
  refine ⟨⟨?_, sound.programFits, sound.labelsFit, valid, ?_, sound.annotations, sound.padded⟩,
    preloaded_wf d.preload, statusExplained_of_running rfl⟩
  · rw [construct_install_nreg]
    exact ⟨someName, few⟩
  · change (BitVec.ofNat 8 d.memMin).toNat ≤ (BitVec.ofNat 8 d.memMax).toNat
    simp only [BitVec.toNat_ofNat]
    omega

/-- Settles O53: each entry is the encoding of a well-formed instruction whose registers exist, and
decodes to it. -/
theorem bootHasLegalImage : Obligations.BootHasLegalImage := by
  intro m d src s valid boots
  obtain ⟨⟨someName, few, -⟩, -, -, p, assembled, rfl⟩ := boot_ok boots
  refine ⟨fun e he => ?_, noLoaderFault_of_running rfl⟩
  obtain ⟨i, rfl, wellFormed, fits⟩ := (assemble_sound someName few assembled).entries e he
  exact ⟨i, decodeEncodeAgree m i valid wellFormed, by rwa [construct_install_nreg]⟩

/-- Settles O57: the run starts from a legal image without a fault, and steps keep both. -/
theorem bootedRunsAreSafe : Obligations.BootedRunsAreSafe := by
  intro m d src s valid boots t reached
  obtain ⟨legal, clean⟩ := bootHasLegalImage m d src s valid boots
  exact reached.noLoaderFault legal clean

end Sys2Proof.Machine
end

section
/-! SUPPORT. The loader reads UTF-8 (R104): decoding inverts the encoding of one code point after another. -/

namespace Sys2Proof.Machine

/-! ### The encoding of one code point -/

/-- The last `k` bytes of the encoding of a number: its low `6 * k` bits, six to a byte. -/
def continuationBytes (k v : Nat) : List Byte :=
  match k with
  | 0 => []
  | k + 1 => BitVec.ofNat 8 (v / 64 ^ k % 64 + 128) :: continuationBytes k v

/-- The bytes of one code point. -/
def charBytes (c : Char) : List Byte := (String.utf8EncodeChar c).map UInt8.toBitVec

/-- Every code point is below 0x110000. -/
theorem char_lt (c : Char) : c.val.toNat < 1114112 := by
  have valid := c.valid
  simp only [UInt32.isValidChar, Nat.isValidChar] at valid
  omega

/-- A code point is encoded in one to four bytes by its size: a first byte with its highest bits, then
continuation bytes. -/
theorem charBytes_eq (c : Char) : charBytes c =
    if c.val.toNat < 128 then [BitVec.ofNat 8 c.val.toNat]
    else if c.val.toNat < 2048 then
      BitVec.ofNat 8 (c.val.toNat / 64 + 192) :: continuationBytes 1 c.val.toNat
    else if c.val.toNat < 65536 then
      BitVec.ofNat 8 (c.val.toNat / 64 ^ 2 + 224) :: continuationBytes 2 c.val.toNat
    else BitVec.ofNat 8 (c.val.toNat / 64 ^ 3 + 240) :: continuationBytes 3 c.val.toNat := by
  have valid := char_lt c
  rw [charBytes, String.utf8EncodeChar]
  generalize c.val.toNat = v at valid ⊢
  have ofNat_toBitVec (n : Nat) : (UInt8.ofNat n).toBitVec = BitVec.ofNat 8 n := rfl
  simp only [← Nat.lt_succ_iff]
  split
  · rfl
  split
  next small =>
    have top : v / 64 % 32 = v / 64 := Nat.mod_eq_of_lt (by omega)
    simp [continuationBytes, ofNat_toBitVec, BitVec.ofNat_add, top]
  split
  next small =>
    have top : v / 4096 % 16 = v / 4096 := Nat.mod_eq_of_lt (by omega)
    simp [continuationBytes, ofNat_toBitVec, BitVec.ofNat_add, top]
  next =>
    have top : v / 262144 % 8 = v / 262144 := Nat.mod_eq_of_lt (by omega)
    simp [continuationBytes, ofNat_toBitVec, BitVec.ofNat_add, top]

/-! ### Decoding one code point -/

/-- A continuation byte gives its six bits. -/
theorem utf8Continuation?_ofNat {bits : Nat} (h : bits < 64) :
    utf8Continuation? (BitVec.ofNat 8 (bits + 128)).toNat = some bits := by
  have number : (BitVec.ofNat 8 (bits + 128)).toNat = bits + 128 := by
    rw [BitVec.toNat_ofNat]
    omega
  rw [number, utf8Continuation?, if_pos (by omega), Nat.add_sub_cancel]

/-- The bits of a number above the last `k` bytes are those above one byte more and the six of that byte. -/
theorem div_pow_eq_iff (v k acc bits : Nat) (h : bits < 64) :
    v / 64 ^ k = acc * 64 + bits ↔ v / 64 ^ (k + 1) = acc ∧ v / 64 ^ k % 64 = bits := by
  rw [Nat.pow_succ, ← Nat.div_div_eq_div_mul]
  omega

/-- In front of `src` stand the last `k` bytes of a code point that has the bits `acc` above them and is at
least `least`; it opens `text`, and what follows decodes to the rest of `text`. -/
def Continues (k acc least : Nat) (src : List Byte) (text : Text) : Prop :=
  ∃ c t rest, src = continuationBytes k c.val.toNat ++ rest ∧ c.val.toNat / 64 ^ k = acc ∧
    least ≤ c.val.toNat ∧ utf8From 0 0 0 rest = some t ∧ text = c :: t

/-- Inside a code point, decoding answers exactly for the continuation bytes of one that is not longer
than it need be. -/
theorem utf8From_succ_iff (k acc least : Nat) (src : List Byte) (text : Text) :
    utf8From (k + 1) acc least src = some text ↔ Continues (k + 1) acc least src text := by
  induction k generalizing acc src with
  | zero =>
    constructor
    · intro decodes
      obtain ⟨b, rest, rfl, low, high, ends, -⟩ := utf8From_succ_cases decodes
      obtain ⟨enough, c, t, point, more, rfl⟩ := ends rfl
      have value := (codePoint?_eq_some_iff _ c).mp point
      refine ⟨c, t, rest, ?_, by omega, by omega, more, rfl⟩
      have byte : b = BitVec.ofNat 8 (c.val.toNat / 64 ^ 0 % 64 + 128) := by
        apply BitVec.eq_of_toNat_eq
        rw [BitVec.toNat_ofNat]
        omega
      rw [byte]
      rfl
    · rintro ⟨c, t, rest, rfl, above, enough, more, rfl⟩
      have bits : c.val.toNat / 64 ^ 0 % 64 < 64 := Nat.mod_lt _ (by decide)
      have value : acc * 64 + c.val.toNat / 64 ^ 0 % 64 = c.val.toNat := by omega
      rw [continuationBytes, List.cons_append, utf8From]
      simp only [utf8Continuation?_ofNat bits, if_true, value, if_neg (Nat.not_lt.mpr enough),
        (codePoint?_eq_some_iff _ c).mpr rfl, Option.bind_some]
      simp [continuationBytes, more]
  | succ k ih =>
    constructor
    · intro decodes
      obtain ⟨b, rest, rfl, low, high, -, goesOn⟩ := utf8From_succ_cases decodes
      obtain ⟨c, t, rest', rfl, above, enough, more, rfl⟩ := (ih _ _).mp (goesOn (Nat.succ_ne_zero k))
      obtain ⟨above', bits⟩ := (div_pow_eq_iff _ _ _ _ (by omega)).mp above
      refine ⟨c, t, rest', ?_, above', enough, more, rfl⟩
      have byte : b = BitVec.ofNat 8 (c.val.toNat / 64 ^ (k + 1) % 64 + 128) := by
        apply BitVec.eq_of_toNat_eq
        rw [BitVec.toNat_ofNat, bits]
        omega
      rw [byte]
      rfl
    · rintro ⟨c, t, rest, rfl, above, enough, more, rfl⟩
      have bits : c.val.toNat / 64 ^ (k + 1) % 64 < 64 := Nat.mod_lt _ (by decide)
      rw [continuationBytes, List.cons_append, utf8From]
      simp only [utf8Continuation?_ofNat bits, if_neg (Nat.succ_ne_zero k)]
      exact (ih _ _).mpr ⟨c, t, rest, rfl, (div_pow_eq_iff _ _ _ _ bits).mpr ⟨above, rfl⟩, enough,
        more, rfl⟩

/-! ### The first byte of a code point -/

/-- How a byte that opens a code point opens it. -/
theorem utf8Lead?_cases {b k acc least : Nat} (lead : utf8Lead? b = some (k, acc, least)) :
    (b < 128 ∧ k = 0 ∧ acc = b ∧ least = 0) ∨
    (192 ≤ b ∧ b < 224 ∧ k = 1 ∧ acc = b - 192 ∧ least = 128) ∨
    (224 ≤ b ∧ b < 240 ∧ k = 2 ∧ acc = b - 224 ∧ least = 2048) ∨
    (240 ≤ b ∧ b < 248 ∧ k = 3 ∧ acc = b - 240 ∧ least = 65536) := by
  rw [utf8Lead?] at lead
  split_ifs at lead
  all_goals
    simp only [Option.some.injEq, Prod.mk.injEq] at lead
    omega

/-- A byte is the byte of its number. -/
theorem ofNat_eq_of_toNat {b : Byte} {n : Nat} (h : n = b.toNat) : BitVec.ofNat 8 n = b := by
  rw [h, BitVec.ofNat_toNat, BitVec.setWidth_eq]

/-- A byte that opens a code point with the bits above its continuation is that code point's first. -/
theorem charBytes_of_lead {b : Byte} {k acc least : Nat} {c : Char}
    (lead : utf8Lead? b.toNat = some (k, acc, least)) (above : c.val.toNat / 64 ^ k = acc)
    (enough : least ≤ c.val.toNat) : charBytes c = b :: continuationBytes k c.val.toNat := by
  rw [charBytes_eq]
  rcases utf8Lead?_cases lead with ⟨_, rfl, _, _⟩ | ⟨_, _, rfl, _, _⟩ | ⟨_, _, rfl, _, _⟩ |
    ⟨_, _, rfl, _, _⟩
  · rw [if_pos (by omega), ofNat_eq_of_toNat (b := b) (by omega)]
    rfl
  · rw [if_neg (by omega), if_pos (by omega), ofNat_eq_of_toNat (b := b) (by omega)]
  · rw [if_neg (by omega), if_neg (by omega), if_pos (by omega), ofNat_eq_of_toNat (b := b) (by omega)]
  · rw [if_neg (by omega), if_neg (by omega), if_neg (by omega), ofNat_eq_of_toNat (b := b) (by omega)]

/-- The first byte of a code point opens it. -/
theorem exists_lead (c : Char) : ∃ b k acc least, charBytes c = b :: continuationBytes k c.val.toNat ∧
    utf8Lead? b.toNat = some (k, acc, least) ∧ c.val.toNat / 64 ^ k = acc ∧ least ≤ c.val.toNat := by
  have valid := char_lt c
  have number {n : Nat} (h : n < 256) : (BitVec.ofNat 8 n).toNat = n := by
    rw [BitVec.toNat_ofNat, Nat.mod_eq_of_lt h]
  rw [charBytes_eq]
  split
  next small =>
    refine ⟨_, 0, c.val.toNat, 0, rfl, ?_, by simp, Nat.zero_le _⟩
    rw [number (by omega), utf8Lead?, if_pos small]
  split
  next small =>
    refine ⟨_, 1, _, 128, rfl, ?_, rfl, by omega⟩
    rw [number (by omega), utf8Lead?, if_neg (by omega), if_neg (by omega), if_pos (by omega),
      Nat.add_sub_cancel, pow_one]
  split
  next small =>
    refine ⟨_, 2, _, 2048, rfl, ?_, rfl, by omega⟩
    rw [number (by omega), utf8Lead?, if_neg (by omega), if_neg (by omega), if_neg (by omega),
      if_pos (by omega), Nat.add_sub_cancel]
  next =>
    refine ⟨_, 3, _, 65536, rfl, ?_, rfl, by omega⟩
    rw [number (by omega), utf8Lead?, if_neg (by omega), if_neg (by omega), if_neg (by omega),
      if_neg (by omega), if_pos (by omega), Nat.add_sub_cancel]

/-! ### Decoding a text -/

/-- Between code points, decoding answers exactly for a byte that opens one and what continues it. -/
theorem utf8From_of_lead {b : Byte} {k acc least : Nat} (src : List Byte) (text : Text)
    (lead : utf8Lead? b.toNat = some (k, acc, least)) :
    utf8From 0 0 0 (b :: src) = some text ↔ Continues k acc least src text := by
  rw [utf8From, lead]
  cases k with
  | succ k => exact utf8From_succ_iff k acc least src text
  | zero =>
    obtain rfl : least = 0 := by rcases utf8Lead?_cases lead with h | h | h | h <;> omega
    simp only [Option.bind_eq_some_iff, Option.map_eq_some_iff, codePoint?_eq_some_iff]
    constructor
    · rintro ⟨c, value, t, more, rfl⟩
      exact ⟨c, t, src, rfl, by simpa using value, Nat.zero_le _, more, rfl⟩
    · rintro ⟨c, t, rest, rfl, value, -, more, rfl⟩
      exact ⟨c, by simpa using value, t, more, rfl⟩

/-- Decoding answers a text with a first code point exactly where that code point's bytes are in front. -/
theorem utf8From_cons_iff (src : List Byte) (c : Char) (t : Text) :
    utf8From 0 0 0 src = some (c :: t) ↔
      ∃ rest, src = charBytes c ++ rest ∧ utf8From 0 0 0 rest = some t := by
  constructor
  · intro decodes
    cases src with
    | nil => simp [utf8From] at decodes
    | cons b src =>
      cases lead : utf8Lead? b.toNat with
      | none => simp [utf8From, lead] at decodes
      | some opened =>
        obtain ⟨k, acc, least⟩ := opened
        obtain ⟨c', t', rest, rfl, above, enough, more, is⟩ := (utf8From_of_lead _ _ lead).mp decodes
        cases is
        exact ⟨rest, by rw [charBytes_of_lead lead above enough, List.cons_append], more⟩
  · rintro ⟨rest, rfl, more⟩
    obtain ⟨b, k, acc, least, is, lead, above, enough⟩ := exists_lead c
    rw [is, List.cons_append]
    exact (utf8From_of_lead _ _ lead).mpr ⟨c, t, rest, rfl, above, enough, more, rfl⟩

/-- Decoding answers the empty text for no bytes only: a byte opens a code point or nothing. -/
theorem utf8From_nil_iff (src : List Byte) : utf8From 0 0 0 src = some [] ↔ src = [] := by
  refine ⟨fun decodes => ?_, fun none => by simp [none, utf8From]⟩
  cases src with
  | nil => rfl
  | cons b src =>
    cases lead : utf8Lead? b.toNat with
    | none => simp [utf8From, lead] at decodes
    | some opened =>
      obtain ⟨_, _, _, _, _, _, _, is⟩ := (utf8From_of_lead (k := opened.1) _ _ lead).mp decodes
      cases is

theorem utf8Encode_cons (c : Char) (t : Text) : utf8Encode (c :: t) = charBytes c ++ utf8Encode t :=
  List.flatMap_cons

/-- Settles O54: decoding takes one code point's bytes off the front at a time, as encoding puts them
there. -/
theorem sourceIsUtf8 : Obligations.SourceIsUtf8 := by
  intro src text
  rw [utf8Decode]
  induction text generalizing src with
  | nil => exact utf8From_nil_iff src
  | cons c t ih =>
    rw [utf8From_cons_iff, utf8Encode_cons]
    simp only [ih, exists_eq_right]

end Sys2Proof.Machine
end
